-- ==== Sys2Proof/Word.lean ====
section
/-! DEFINITION. The word types of the core: bytes, 16-bit words, 12-bit addresses and 4-bit register numbers. -/

namespace Sys2Proof

/-- A byte: the unit of MEM (R61) and the width of V0 to VF, DT and ST (R33, R45). -/
abbrev Byte := BitVec 8

/-- An instruction word, a stack entry, and the storage of I and PC (R7, R38, R39, R42, R90). -/
abbrev Word := BitVec 16

/-- An address: 12 meaningful bits, so addition on it is addition modulo 4096 (R7, R64). -/
abbrev Addr := BitVec 12

/-- The number of a general register, 0 to 15 naming V0 to VF (R94), and of a hex key (R47). -/
abbrev Reg := Fin 16

end Sys2Proof
end

