-- ==== Sys2Proof/Config.lean ====
section
/-! DEFINITION. What the spec leaves open as named parameters (00_scope.md R8), and the free value of Cxkk (R14). -/

namespace Sys2Proof

/-- KEYWAIT_TRIGGER (R8, R285): whether Fx0A is satisfied by a key being down or by a key going down. -/
inductive KeyTrigger
  | level
  | edge
deriving DecidableEq, Repr

/-- FONT_WRITE_POLICY (R8, R74): what a data write into the font table does. -/
inductive FontWritePolicy
  | fault
  | write
deriving DecidableEq, Repr

/-- The named parameters of R8 but for RANDOM, as plain data. A state carries its parameters in the field `cfg`
(log entry 1), which nothing writes, so that a statement about every state holds for every choice of them.
KEYWAIT_SELECT is a function from non-empty key sets to one of their keys: `keywaitSelect` lists the sets for which it
differs from the lowest-numbered key, with the key it takes (log entry 2). -/
structure Config where
  /-- FONT_BASE (R71). -/
  fontBase : Addr
  /-- FONT_DATA (R72): glyph `g` is the bytes `5 * g` to `5 * g + 4`. -/
  fontData : Vector Byte 80
  /-- FONT_WRITE_POLICY (R74). -/
  fontWritePolicy : FontWritePolicy
  /-- KEYWAIT_TRIGGER (R285). -/
  keywaitTrigger : KeyTrigger
  /-- KEYWAIT_SELECT (R285), as the list of its exceptions from the default. -/
  keywaitSelect : List (Word × Reg)
deriving DecidableEq, Repr

/-- RANDOM (R8, R14, R216): the byte that the n-th executed Cxkk draws. A free value: it has no body, so nothing about it
can be proved and a theorem about a draw holds for every draw (log entry 3). -/
opaque Config.randomByte : Nat → Byte

end Sys2Proof
end

