-- ==== Sys2Proof/Syntax.lean ====
section
/-! DEFINITION. The 34 instructions of R2, one constructor for each row of spec/opcode_table.json, in the table's order. -/

namespace Sys2Proof

/-- An instruction with its operands. The types bound every field to what its encoding admits (R91, R94), so no term is
ill-formed. `shr` and `shl` carry no y: the y field of their words is decoded and ignored (R99). -/
inductive Instr
  /-- 00E0 (R121) -/
  | cls
  /-- 00EE (R124) -/
  | ret
  /-- 1nnn (R127) -/
  | jp (nnn : Addr)
  /-- 2nnn (R130) -/
  | call (nnn : Addr)
  /-- 3xkk (R133) -/
  | seImm (x : Reg) (kk : Byte)
  /-- 4xkk (R136) -/
  | sneImm (x : Reg) (kk : Byte)
  /-- 5xy0 (R139) -/
  | seReg (x y : Reg)
  /-- 6xkk (R161) -/
  | ldImm (x : Reg) (kk : Byte)
  /-- 7xkk (R163) -/
  | addImm (x : Reg) (kk : Byte)
  /-- 8xy0 (R165) -/
  | ldReg (x y : Reg)
  /-- 8xy1 (R167) -/
  | or (x y : Reg)
  /-- 8xy2 (R169) -/
  | and (x y : Reg)
  /-- 8xy3 (R171) -/
  | xor (x y : Reg)
  /-- 8xy4 (R173) -/
  | addReg (x y : Reg)
  /-- 8xy5 (R174) -/
  | sub (x y : Reg)
  /-- 8x-6 (R175) -/
  | shr (x : Reg)
  /-- 8xy7 (R180) -/
  | subn (x y : Reg)
  /-- 8x-E (R185) -/
  | shl (x : Reg)
  /-- 9xy0 (R142) -/
  | sneReg (x y : Reg)
  /-- Annn (R210) -/
  | ldI (nnn : Addr)
  /-- Bnnn (R213) -/
  | jpV0 (nnn : Addr)
  /-- Cxkk (R216) -/
  | rnd (x : Reg) (kk : Byte)
  /-- Dxyn (R235) -/
  | drw (x y : Reg) (n : BitVec 4)
  /-- Ex9E (R262) -/
  | skp (x : Reg)
  /-- ExA1 (R265) -/
  | sknp (x : Reg)
  /-- Fx07 (R280) -/
  | ldVxDt (x : Reg)
  /-- Fx0A (R285) -/
  | ldVxK (x : Reg)
  /-- Fx15 (R290) -/
  | ldDtVx (x : Reg)
  /-- Fx18 (R295) -/
  | ldStVx (x : Reg)
  /-- Fx1E (R300) -/
  | addI (x : Reg)
  /-- Fx29 (R305) -/
  | ldF (x : Reg)
  /-- Fx33 (R310) -/
  | ldB (x : Reg)
  /-- Fx55 (R315) -/
  | ldMemVx (x : Reg)
  /-- Fx65 (R320) -/
  | ldVxMem (x : Reg)
deriving DecidableEq, Repr

end Sys2Proof
end

