-- ==== Sys2Proof/WellFormed.lean ====
section
/-! DEFINITION. The checks: the domains of the parameters (R8) and of the operands a programmer writes (R106, R107).
A term of `Instr` needs no check: its types hold exactly the operands its encoding admits. -/

namespace Sys2Proof

/-- Glyph 0, the only glyph the spec's source gives (R72): every FONT_DATA must begin with it. -/
def glyphZero : List Byte := [0xF0, 0x90, 0x90, 0x90, 0xF0]

/-- FONT_BASE lies so that the table is inside the reserved range (R8, R71). -/
def Config.fontFits (c : Config) : Bool := decide (c.fontBase.toNat + 80 ≤ 0x200)

/-- FONT_DATA begins with the glyph the source gives (R8, R72). -/
def Config.fontHasGlyphZero (c : Config) : Bool := c.fontData.toList.take 5 == glyphZero

/-- The parameters are in the domains of R8. -/
def Config.wf (c : Config) : Bool := c.fontFits && c.fontHasGlyphZero

/-- The mnemonics of R106. -/
inductive Mnemonic
  | cls | ret | jp | call | se | sne | ld | add | or | and | xor | sub | shr | subn | shl | rnd | drw | skp | sknp
deriving DecidableEq, Repr

/-- An operand as written (R106): a register, a number, or one of the fixed operand names. Numbers are as written, with
no bound yet. -/
inductive Operand
  | v (r : Nat)
  | num (n : Nat)
  | i
  | atI
  | dt
  | st
  | k
  | f
  | b
deriving DecidableEq, Repr

/-- A line of assembly (R106). -/
structure Line where
  mnemonic : Mnemonic
  operands : List Operand
deriving DecidableEq, Repr

/-- Why a line is ill-formed. -/
inductive LineError
  /-- A register that is not V0 to VF. -/
  | register
  /-- An address above 0xFFF. -/
  | address
  /-- An immediate above 0xFF. -/
  | immediate
  /-- A sprite height above 0xF. -/
  | height
  /-- Operands that the mnemonic does not take. -/
  | shape
deriving DecidableEq, Repr

/-- The register V0 to VF that a register operand names (R106). -/
def checkReg (r : Nat) : Except LineError Reg := if h : r < 16 then .ok ⟨r, h⟩ else .error .register

/-- `nnn` must be 0 to 0xFFF (R106). -/
def checkAddr (n : Nat) : Except LineError Addr := if n < 0x1000 then .ok (BitVec.ofNat 12 n) else .error .address

/-- `kk` must be 0 to 0xFF (R106). -/
def checkImm (n : Nat) : Except LineError Byte := if n < 0x100 then .ok (BitVec.ofNat 8 n) else .error .immediate

/-- `n` must be 0 to 0xF (R106). -/
def checkHeight (n : Nat) : Except LineError (BitVec 4) := if n < 0x10 then .ok (BitVec.ofNat 4 n) else .error .height

/-- The instruction a line stands for, by the table of R106; each line is one instruction (R107). -/
def Line.check (l : Line) : Except LineError Instr :=
  match l.mnemonic, l.operands with
  | .cls, [] => .ok .cls
  | .ret, [] => .ok .ret
  | .jp, [.num n] => (checkAddr n).map .jp
  | .jp, [.v 0, .num n] => (checkAddr n).map .jpV0
  | .call, [.num n] => (checkAddr n).map .call
  | .se, [.v x, .num n] => do pure (.seImm (← checkReg x) (← checkImm n))
  | .se, [.v x, .v y] => do pure (.seReg (← checkReg x) (← checkReg y))
  | .sne, [.v x, .num n] => do pure (.sneImm (← checkReg x) (← checkImm n))
  | .sne, [.v x, .v y] => do pure (.sneReg (← checkReg x) (← checkReg y))
  | .ld, [.v x, .num n] => do pure (.ldImm (← checkReg x) (← checkImm n))
  | .ld, [.v x, .v y] => do pure (.ldReg (← checkReg x) (← checkReg y))
  | .ld, [.i, .num n] => (checkAddr n).map .ldI
  | .ld, [.v x, .dt] => (checkReg x).map .ldVxDt
  | .ld, [.v x, .k] => (checkReg x).map .ldVxK
  | .ld, [.dt, .v x] => (checkReg x).map .ldDtVx
  | .ld, [.st, .v x] => (checkReg x).map .ldStVx
  | .ld, [.f, .v x] => (checkReg x).map .ldF
  | .ld, [.b, .v x] => (checkReg x).map .ldB
  | .ld, [.atI, .v x] => (checkReg x).map .ldMemVx
  | .ld, [.v x, .atI] => (checkReg x).map .ldVxMem
  | .add, [.v x, .num n] => do pure (.addImm (← checkReg x) (← checkImm n))
  | .add, [.v x, .v y] => do pure (.addReg (← checkReg x) (← checkReg y))
  | .add, [.i, .v x] => (checkReg x).map .addI
  | .or, [.v x, .v y] => do pure (.or (← checkReg x) (← checkReg y))
  | .and, [.v x, .v y] => do pure (.and (← checkReg x) (← checkReg y))
  | .xor, [.v x, .v y] => do pure (.xor (← checkReg x) (← checkReg y))
  | .sub, [.v x, .v y] => do pure (.sub (← checkReg x) (← checkReg y))
  | .shr, [.v x] => (checkReg x).map .shr
  | .shr, [.v x, .v y] => do let x ← checkReg x; let _ ← checkReg y; pure (.shr x)
  | .subn, [.v x, .v y] => do pure (.subn (← checkReg x) (← checkReg y))
  | .shl, [.v x] => (checkReg x).map .shl
  | .shl, [.v x, .v y] => do let x ← checkReg x; let _ ← checkReg y; pure (.shl x)
  | .rnd, [.v x, .num n] => do pure (.rnd (← checkReg x) (← checkImm n))
  | .drw, [.v x, .v y, .num n] => do pure (.drw (← checkReg x) (← checkReg y) (← checkHeight n))
  | .skp, [.v x] => (checkReg x).map .skp
  | .sknp, [.v x] => (checkReg x).map .sknp
  | _, _ => .error .shape

/-- A line that stands for an instruction. -/
def Line.wf (l : Line) : Bool := match l.check with
  | .ok _ => true
  | .error _ => false

end Sys2Proof
end

