-- ==== Sys2Proof/Decode.lean ====
section
/-! DEFINITION. Operand extraction (R92, R93), the decode table (R98), the encoder written from the same encodings (R91),
and the words an assembler line places in memory (R106). -/

namespace Sys2Proof

/-- `op = (w >> 12) AND 0xF` (R93). -/
def opField (w : Word) : BitVec 4 := w.extractLsb' 12 4

/-- `nnn = w AND 0x0FFF` (R92). -/
def nnnField (w : Word) : Addr := w.extractLsb' 0 12

/-- `x = (w >> 8) AND 0x0F` (R92). -/
def xField (w : Word) : Reg := (w.extractLsb' 8 4).toFin

/-- `y = (w >> 4) AND 0x0F` (R92). -/
def yField (w : Word) : Reg := (w.extractLsb' 4 4).toFin

/-- `kk = w AND 0x00FF` (R92). -/
def kkField (w : Word) : Byte := w.extractLsb' 0 8

/-- `n = w AND 0x000F` (R92). -/
def nField (w : Word) : BitVec 4 := w.extractLsb' 0 4

/-- Why bytes are no instruction. The first six are ILLEGAL of R98, named by the group of the word (R104). -/
inductive DecodeError
  /-- 0x0000 to 0x0FFF except 0x00E0 and 0x00EE: there is no 0nnn instruction (R105). -/
  | group0
  /-- 5xyN with N not 0. -/
  | group5
  /-- 8xyN with N in 8 to D, or F. -/
  | group8
  /-- 9xyN with N not 0. -/
  | group9
  /-- ExKK with KK not 9E or A1. -/
  | groupE
  /-- FxKK with an unlisted KK. -/
  | groupF
  /-- Fewer than the two bytes of an instruction (R90). A fetch always has two. -/
  | tooShort
deriving DecidableEq, Repr

/-- Group 0x0 tests the whole word (R98). -/
def decode0 (w : Word) : Except DecodeError Instr :=
  if w = 0x00E0 then .ok .cls else if w = 0x00EE then .ok .ret else .error .group0

/-- Group 0x8 tests the low nibble (R98). -/
def decode8 (w : Word) : Except DecodeError Instr :=
  match (nField w).toNat with
  | 0x0 => .ok (.ldReg (xField w) (yField w))
  | 0x1 => .ok (.or (xField w) (yField w))
  | 0x2 => .ok (.and (xField w) (yField w))
  | 0x3 => .ok (.xor (xField w) (yField w))
  | 0x4 => .ok (.addReg (xField w) (yField w))
  | 0x5 => .ok (.sub (xField w) (yField w))
  | 0x6 => .ok (.shr (xField w))
  | 0x7 => .ok (.subn (xField w) (yField w))
  | 0xE => .ok (.shl (xField w))
  | _ => .error .group8

/-- Group 0xE tests the low byte (R98). -/
def decodeE (w : Word) : Except DecodeError Instr :=
  match (kkField w).toNat with
  | 0x9E => .ok (.skp (xField w))
  | 0xA1 => .ok (.sknp (xField w))
  | _ => .error .groupE

/-- Group 0xF tests the low byte (R98). -/
def decodeF (w : Word) : Except DecodeError Instr :=
  match (kkField w).toNat with
  | 0x07 => .ok (.ldVxDt (xField w))
  | 0x0A => .ok (.ldVxK (xField w))
  | 0x15 => .ok (.ldDtVx (xField w))
  | 0x18 => .ok (.ldStVx (xField w))
  | 0x1E => .ok (.addI (xField w))
  | 0x29 => .ok (.ldF (xField w))
  | 0x33 => .ok (.ldB (xField w))
  | 0x55 => .ok (.ldMemVx (xField w))
  | 0x65 => .ok (.ldVxMem (xField w))
  | _ => .error .groupF

/-- `decode(w)`: a total function of the word alone (R95), dispatching on the high nibble and then as R98 says. -/
def decode (w : Word) : Except DecodeError Instr :=
  match (opField w).toNat with
  | 0x0 => decode0 w
  | 0x1 => .ok (.jp (nnnField w))
  | 0x2 => .ok (.call (nnnField w))
  | 0x3 => .ok (.seImm (xField w) (kkField w))
  | 0x4 => .ok (.sneImm (xField w) (kkField w))
  | 0x5 => if nField w = 0 then .ok (.seReg (xField w) (yField w)) else .error .group5
  | 0x6 => .ok (.ldImm (xField w) (kkField w))
  | 0x7 => .ok (.addImm (xField w) (kkField w))
  | 0x8 => decode8 w
  | 0x9 => if nField w = 0 then .ok (.sneReg (xField w) (yField w)) else .error .group9
  | 0xA => .ok (.ldI (nnnField w))
  | 0xB => .ok (.jpV0 (nnnField w))
  | 0xC => .ok (.rnd (xField w) (kkField w))
  | 0xD => .ok (.drw (xField w) (yField w) (nField w))
  | 0xE => decodeE w
  | _ => decodeF w  -- 0xF, the one value left of a 4-bit field

/-- The big-endian word of two bytes, the first one the high half (R66). -/
def wordOfBytes (hi lo : Byte) : Word := hi ++ lo

/-- The two bytes of a word in the order they are stored (R66, R90). -/
def bytesOfWord (w : Word) : List Byte := [w.extractLsb' 8 8, w.extractLsb' 0 8]

/-- Decode the instruction at the head of a list of bytes: a decoder always consumes exactly 2 bytes (R90). -/
def decodeBytes : List Byte → Except DecodeError (Instr × List Byte)
  | hi :: lo :: rest => (decode (wordOfBytes hi lo)).map fun i => (i, rest)
  | _ => .error .tooShort

/-- The 4-bit field that names a register (R94). -/
def regBits (x : Reg) : BitVec 4 := BitVec.ofFin x

/-- Format NNN, `oooo nnnn nnnn nnnn` (R91). -/
def encNNN (op : BitVec 4) (nnn : Addr) : Word := op ++ nnn

/-- Format XKK, `oooo xxxx kkkk kkkk` (R91), and XSS, where kk is the sub-opcode. -/
def encXKK (op : BitVec 4) (x : Reg) (kk : Byte) : Word := op ++ regBits x ++ kk

/-- Format XYN, `oooo xxxx yyyy nnnn` (R91), and XYS, where n is the sub-opcode. -/
def encXYN (op : BitVec 4) (x y : Reg) (n : BitVec 4) : Word := op ++ regBits x ++ regBits y ++ n

/-- The word of an instruction (R91, R98). The ignored y field of SHR and SHL is encoded as 0, as an assembler line without
Vy does (R106). -/
def encode : Instr → Word
  | .cls => 0x00E0
  | .ret => 0x00EE
  | .jp nnn => encNNN 0x1 nnn
  | .call nnn => encNNN 0x2 nnn
  | .seImm x kk => encXKK 0x3 x kk
  | .sneImm x kk => encXKK 0x4 x kk
  | .seReg x y => encXYN 0x5 x y 0x0
  | .ldImm x kk => encXKK 0x6 x kk
  | .addImm x kk => encXKK 0x7 x kk
  | .ldReg x y => encXYN 0x8 x y 0x0
  | .or x y => encXYN 0x8 x y 0x1
  | .and x y => encXYN 0x8 x y 0x2
  | .xor x y => encXYN 0x8 x y 0x3
  | .addReg x y => encXYN 0x8 x y 0x4
  | .sub x y => encXYN 0x8 x y 0x5
  | .shr x => encXYN 0x8 x 0 0x6
  | .subn x y => encXYN 0x8 x y 0x7
  | .shl x => encXYN 0x8 x 0 0xE
  | .sneReg x y => encXYN 0x9 x y 0x0
  | .ldI nnn => encNNN 0xA nnn
  | .jpV0 nnn => encNNN 0xB nnn
  | .rnd x kk => encXKK 0xC x kk
  | .drw x y n => encXYN 0xD x y n
  | .skp x => encXKK 0xE x 0x9E
  | .sknp x => encXKK 0xE x 0xA1
  | .ldVxDt x => encXKK 0xF x 0x07
  | .ldVxK x => encXKK 0xF x 0x0A
  | .ldDtVx x => encXKK 0xF x 0x15
  | .ldStVx x => encXKK 0xF x 0x18
  | .addI x => encXKK 0xF x 0x1E
  | .ldF x => encXKK 0xF x 0x29
  | .ldB x => encXKK 0xF x 0x33
  | .ldMemVx x => encXKK 0xF x 0x55
  | .ldVxMem x => encXKK 0xF x 0x65

/-- The word an assembler line assembles to (R106, R107). Only `SHR Vx, Vy` and `SHL Vx, Vy` differ from `encode`: the
written Vy is encoded in y, where decode ignores it. -/
def Line.assemble (l : Line) : Except LineError Word :=
  match l.mnemonic, l.operands with
  | .shr, [.v x, .v y] => do pure (encXYN 0x8 (← checkReg x) (← checkReg y) 0x6)
  | .shl, [.v x, .v y] => do pure (encXYN 0x8 (← checkReg x) (← checkReg y) 0xE)
  | _, _ => l.check.map encode

/-- What the decoder reads from an instruction whose bits are `w`, numbered as spec/opcode_table.json numbers them: one
16-bit word, laid out as the two bytes the hardware stores (R66, R90). The bits from `nbits` up are 0. -/
def decodeTableWord (nbits w : Nat) : Option Instr :=
  match decodeBytes (bytesOfWord (BitVec.ofNat 16 (w % 2 ^ nbits))) with
  | .ok (i, _) => some i
  | .error _ => none

end Sys2Proof
end

