-- ==== Sys2Proof/Machine/Font.lean ====
section
/-! DEFINITION. The font table and what memory holds at reset (R53, R62, R70 to R72), and the default parameters of R8. -/

namespace Sys2Proof.Machine

/-- The conventional hexadecimal font, the default of FONT_DATA (R72): glyph 0 is the source's, glyphs 1 to F are marked by
the spec as general knowledge (PRESUMED, log entry 2). -/
def defaultFontData : Vector Byte 80 := #v[
  0xF0, 0x90, 0x90, 0x90, 0xF0,
  0x20, 0x60, 0x20, 0x20, 0x70,
  0xF0, 0x10, 0xF0, 0x80, 0xF0,
  0xF0, 0x10, 0xF0, 0x10, 0xF0,
  0x90, 0x90, 0xF0, 0x10, 0x10,
  0xF0, 0x80, 0xF0, 0x10, 0xF0,
  0xF0, 0x80, 0xF0, 0x90, 0xF0,
  0xF0, 0x10, 0x20, 0x40, 0x40,
  0xF0, 0x90, 0xF0, 0x90, 0xF0,
  0xF0, 0x90, 0xF0, 0x10, 0xF0,
  0xF0, 0x90, 0xF0, 0x90, 0x90,
  0xE0, 0x90, 0xE0, 0x90, 0xE0,
  0xF0, 0x80, 0x80, 0x80, 0xF0,
  0xE0, 0x90, 0x90, 0x90, 0xE0,
  0xF0, 0x80, 0xF0, 0x80, 0xF0,
  0xF0, 0x80, 0xF0, 0x80, 0x80]

/-- The default column of R8 (log entry 2). -/
def defaultConfig : Config where
  fontBase := 0x000
  fontData := defaultFontData
  fontWritePolicy := .fault
  keywaitTrigger := .level
  keywaitSelect := []

/-- The address lies in the font table, FONT_BASE to FONT_BASE + 79 (R70, R74). -/
def inFont (c : Config) (a : Addr) : Bool :=
  decide (c.fontBase.toNat ≤ a.toNat) && decide (a.toNat < c.fontBase.toNat + 80)

/-- What address `a` of MEM holds at reset: the font table at FONT_BASE, zero elsewhere (R53, R62, R70). It is also what an
address that the memory list does not name reads as. -/
def resetByte (c : Config) (a : Nat) : Byte :=
  if h : c.fontBase.toNat ≤ a ∧ a < c.fontBase.toNat + 80 then c.fontData[a - c.fontBase.toNat] else 0

end Sys2Proof.Machine
end

