-- ==== Sys2Proof/Machine/State.lean ====
section
/-! DEFINITION. The state of the core (R30, R53), the reasons a step or a host move can stop, and the state after reset. -/

namespace Sys2Proof.Machine

/-- The fault codes of R401. -/
inductive FaultCode
  /-- A push with SP = 16: CALL (R402). -/
  | stackOverflow
  /-- A pop with SP = 0: RET (R403). -/
  | stackUnderflow
  /-- A word of the illegal space: decode (R404). -/
  | illegalOpcode
  /-- V[x] names no key: SKP, SKNP (R405). -/
  | keyRange
  /-- A data write into the font table: LD_B, LD_MEM_VX (R406). -/
  | fontWrite
deriving DecidableEq, Repr

/-- What FAULT records (R50): the code, the address of the instruction that raised it (12 bits) and its word. -/
structure FaultRecord where
  code : FaultCode
  addr : Addr
  word : Word
deriving DecidableEq, Repr

/-- MEM as the list of the bytes that differ from the reset contents, in rising order of address (log entry 5). -/
abbrev Memory := List Host.Cell

/-- FB: 32 rows of 64 one-bit pixels, true meaning on (R46). -/
abbrev Framebuffer := Vector (Vector Bool 64) 32

/-- The state, R30's tuple, with the parameters of R8 (`cfg`) and the counter of random draws (`draws`) beside it as the
model's own two fields (log entries 1 and 3). -/
structure State where
  /-- The parameters of R8: fixed for a run (R31); nothing writes them. -/
  cfg : Config
  /-- MEM (R32). -/
  mem : Memory
  /-- V0 to VF (R33). -/
  v : Vector Byte 16
  /-- I (R38). -/
  i : Word
  /-- PC (R39). -/
  pc : Word
  /-- STACK (R42). -/
  stack : Vector Word 16
  /-- SP, the count of live entries, 0 to 16 (R43). -/
  sp : Fin 17
  /-- DT (R45). -/
  dt : Byte
  /-- ST (R45). -/
  st : Byte
  /-- FB (R46). -/
  fb : Framebuffer
  /-- KEY: bit k is 1 when key k is down (R47). -/
  key : Word
  /-- AWAIT (R48). -/
  awaiting : Bool
  /-- KW_PREV: bit k is KEY[k] at the previous attempt of the pending Fx0A (R49). -/
  kwPrev : Word
  /-- FAULT (R50). -/
  fault : Option FaultRecord
  /-- How many draws RND has made: the index of the next free value (R14). -/
  draws : Nat
deriving DecidableEq, Repr

/-- The reasons a step stops the machine: none. Every fault of this core (R401) has an entry that the spec describes (R410),
so it is a next state with FAULT set, and a halted core goes on unchanged (R412). Safe: no step is cut short. -/
inductive Fault
deriving DecidableEq, Repr

/-- The reasons something has no meaning. -/
inductive Refusal
  /-- An instruction without a meaning yet, raised by an arm of exec and by nothing else; no arm raises it. Safe. -/
  | notModelled (mnemonic : String)
  /-- A host load of more than 3584 bytes: raised by `hostLoad` only, never by a step. It "has no defined meaning" (R63) and
  is not a host move (R430). Safe: the move does not happen. -/
  | loadTooLong
deriving DecidableEq, Repr

/-- The state after reset with the parameters `c` (R53, R450). The values the source does not give are those of the spec's
decision D16 (log entry 4); memory lists nothing, so it holds its reset contents. -/
def State.resetWith (c : Config) : State where
  cfg := c
  mem := []
  v := Vector.replicate 16 0x00
  i := 0x0000
  pc := 0x0200
  stack := Vector.replicate 16 0x0000
  sp := 0
  dt := 0x00
  st := 0x00
  fb := Vector.replicate 32 (Vector.replicate 64 false)
  key := 0x0000
  awaiting := false
  kwPrev := 0x0000
  fault := none
  draws := 0

/-- The machine right after reset, with the default parameters of R8. -/
def State.reset : State := State.resetWith defaultConfig

end Sys2Proof.Machine
end

