-- ==== Sys2Proof/Machine/Ops.lean ====
section
/-! DEFINITION. The named operations over memory, registers, stack, framebuffer and keys, and fault entry (R410). Every
meaning reads and writes the state through them. -/

namespace Sys2Proof.Machine

/-- What a meaning answers. -/
abbrev Result := Host.Outcome State Fault Refusal

/-! ### Addresses (R64) -/

/-- A 16-bit value reduced modulo 4096 (R64). -/
def toAddr (w : Word) : Addr := w.setWidth 12

/-- An address in 16 bits of storage: `zext_16` (R10). -/
def ofAddr (a : Addr) : Word := a.setWidth 16

/-! ### Memory (R12, R60, R69) -/

/-- The byte at address `a`, where `bg` gives what an unlisted address reads as. -/
def memGet (bg : Nat → Byte) : Memory → Nat → Byte
  | [], a => bg a
  | (k, b) :: m, a => if a = k then b else memGet bg m a

/-- Set the byte at address `a`, keeping the canonical form: rising addresses, and no entry that equals `bg`. -/
def memSet (bg : Nat → Byte) (a : Nat) (x : Byte) : Memory → Memory
  | [] => if x = bg a then [] else [(a, x)]
  | (k, b) :: m =>
    if a < k then (if x = bg a then (k, b) :: m else (a, x) :: (k, b) :: m)
    else if a = k then (if x = bg a then m else (a, x) :: m)
    else (k, b) :: memSet bg a x m

/-- From address `lo` on, the list is canonical: strictly rising addresses inside MEM, no entry that equals `bg`. -/
def memCanonical (bg : Nat → Byte) : Nat → Memory → Bool
  | _, [] => true
  | lo, (k, b) :: m => decide (lo ≤ k) && decide (k < 4096) && !(b == bg k) && memCanonical bg (k + 1) m

/-- The canonical form of a memory under the parameters `c` (log entry 5): equal memories are equal lists. -/
def Memory.wf (c : Config) (m : Memory) : Bool := memCanonical (resetByte c) 0 m

/-- `MemRead(a, 1)` (R12). -/
def State.memRead (s : State) (a : Addr) : Byte := memGet (resetByte s.cfg) s.mem a.toNat

/-- `MemWrite(a, 1, x)` (R12). The font rule R74 is checked by the instructions, before their first write (R13). -/
def State.memWrite (s : State) (a : Addr) (x : Byte) : State :=
  { s with mem := memSet (resetByte s.cfg) a.toNat x s.mem }

/-- Write bytes at consecutive addresses from `a` on, each address reduced modulo 4096 (R64). -/
def State.storeBytes (s : State) (a : Addr) : List Byte → State
  | [] => s
  | b :: bs => (s.memWrite a b).storeBytes (a + 1) bs

/-! ### Registers (R11, R33) -/

/-- `V[x]`. -/
def State.readV (s : State) (x : Reg) : Byte := s.v[x]

/-- `V[x] <- b`. -/
def State.writeV (s : State) (x : Reg) (b : Byte) : State := { s with v := s.v.set x b }

/-- The number of VF, the flag register (R35). -/
def vF : Reg := 15

/-- `I <- a`. -/
def State.setI (s : State) (a : Addr) : State := { s with i := ofAddr a }

/-- `DT <- b`. -/
def State.setDt (s : State) (b : Byte) : State := { s with dt := b }

/-- `ST <- b`. -/
def State.setSt (s : State) (b : Byte) : State := { s with st := b }

/-! ### The program counter (R39, R40) -/

/-- `PC <- a`. Every value written to PC is an address, reduced modulo 4096 (R39, R64). -/
def State.setPc (s : State) (a : Addr) : State := { s with pc := ofAddr a }

/-- `PC <- (PC + 2) mod 4096`: the normal advance of a step (R96) and the extra one of a skip (R120). -/
def State.advance (s : State) : State := s.setPc (toAddr s.pc + 2)

/-- `a`, the address of the instruction being executed: while it executes, PC holds `(a + 2) mod 4096` (R16). -/
def State.instrAddr (s : State) : Addr := toAddr s.pc - 2

/-- The big-endian word at PC, the second byte from `PC + 1` modulo 4096 (R66). -/
def State.fetchWord (s : State) : Word := wordOfBytes (s.memRead (toAddr s.pc)) (s.memRead (toAddr s.pc + 1))

/-! ### The return stack (R42, R43) -/

/-- A push: `STACK[SP] <- w; SP <- SP + 1`, possible when SP < 16 (R43). -/
def State.push (s : State) (w : Word) : Option State :=
  if h : s.sp.val < 16 then
    some { s with stack := s.stack.set s.sp.val w, sp := ⟨s.sp.val + 1, Nat.succ_lt_succ h⟩ }
  else none

/-- A pop: `SP <- SP - 1`, then the entry is `STACK[SP]`, possible when SP > 0 (R43). The entry stays where it is (R44). -/
def State.pop (s : State) : Option (Word × State) :=
  if h : 0 < s.sp.val then
    some (s.stack[s.sp.val - 1]'(by have := s.sp.isLt; omega), { s with sp := ⟨s.sp.val - 1, by have := s.sp.isLt; omega⟩ })
  else none

/-! ### The framebuffer (R46) -/

/-- `FB[py][px]`. -/
def pixel (fb : Framebuffer) (px : Fin 64) (py : Fin 32) : Bool := fb[py][px]

/-- `FB[py][px] <- b`. -/
def setPixel (fb : Framebuffer) (px : Fin 64) (py : Fin 32) (b : Bool) : Framebuffer := fb.set py (fb[py].set px b)

/-- The framebuffer with every pixel off (R46, R121). -/
def clearedFb : Framebuffer := Vector.replicate 32 (Vector.replicate 64 false)

/-- Put a framebuffer in place. -/
def State.setFb (s : State) (fb : Framebuffer) : State := { s with fb := fb }

/-! ### The keys (R47 to R49) -/

/-- `KEY[k] = 1`: key k is down. -/
def State.keyDown (s : State) (k : Reg) : Bool := s.key.getLsbD k

/-- Leave the wait of an Fx0A: `AWAIT <- 0` (R285). -/
def State.endWait (s : State) : State := { s with awaiting := false }

/-- Stay in the wait of an Fx0A: `KW_PREV <- KEY; AWAIT <- 1; PC <- a` (R285). -/
def State.keepWaiting (s : State) : State :=
  { s with kwPrev := s.key, awaiting := true, pc := ofAddr s.instrAddr }

/-! ### Random draws (R14) -/

/-- `draw_random()`: the free value of this draw, and the state in which the next draw is another one. -/
def State.drawRandom (s : State) : Byte × State := (Config.randomByte s.draws, { s with draws := s.draws + 1 })

/-! ### Faults (R401, R410) -/

/-- The number of a fault code (R401). -/
def faultNumber : FaultCode → Nat
  | .stackOverflow => 1
  | .stackUnderflow => 2
  | .illegalOpcode => 3
  | .keyRange => 4
  | .fontWrite => 5

/-- Fault entry: `PC <- a; FAULT <- (code, a, w)`, and nothing else changes (R410). -/
def State.enterFault (s : State) (code : FaultCode) (w : Word) : State :=
  { s with pc := ofAddr s.instrAddr, fault := some ⟨code, s.instrAddr, w⟩ }

/-- `raise Fault(code, (a, w))` (R13): fault entry instead of the instruction, as a next state. There is no return from it:
only reset leaves the halted state (R413). -/
def raiseFault (s : State) (code : FaultCode) (w : Word) : Result := .next (s.enterFault code w)

end Sys2Proof.Machine
end

