-- ==== Sys2Proof/Machine/Operands.lean ====
section
/-! DEFINITION. The operand forms: data addresses `I + k`, the jump with offset, the glyph address, the key a register
names, BCD digits, skips, and the keys that satisfy a wait. Immediates and register fields are used as decoded (R94). -/

namespace Sys2Proof.Machine

/-- `(I + k) mod 4096`, the address of the k-th data byte of Dxyn, Fx33, Fx55 and Fx65 (R64). -/
def State.dataAddr (s : State) (k : Nat) : Addr := toAddr s.i + BitVec.ofNat 12 k

/-- `(nnn + V[0]) mod 4096`, the target of Bnnn (R213). -/
def State.offsetTarget (s : State) (nnn : Addr) : Addr := nnn + (s.readV 0).setWidth 12

/-- `(I + V[x]) mod 4096`, the result of Fx1E (R300). -/
def State.indexSum (s : State) (x : Reg) : Addr := toAddr s.i + (s.readV x).setWidth 12

/-- `FONT_BASE + 5 * (b AND 0x0F)`, the address of a glyph (R305). -/
def glyphAddr (c : Config) (b : Byte) : Addr := c.fontBase + BitVec.ofNat 12 (5 * (b &&& 0x0F).toNat)

/-- The key a register's value names: none from 16 up (R260). -/
def keyOf (b : Byte) : Option Reg := if h : b.toNat < 16 then some ⟨b.toNat, h⟩ else none

/-- The BCD digits of a byte, hundreds, tens and units, each a byte of 0 to 9 (R310). -/
def bcdDigits (b : Byte) : List Byte :=
  [BitVec.ofNat 8 (b.toNat / 100), BitVec.ofNat 8 (b.toNat / 10 % 10), BitVec.ofNat 8 (b.toNat % 10)]

/-- V0 to Vx, the registers Fx55 stores (R315). -/
def State.regsUpTo (s : State) (x : Reg) : List Byte := s.v.toList.take (x.val + 1)

/-- V[k] <- MemRead(I + k) for k below n, in rising order, as Fx65 loads (R320). -/
def State.loadRegs (s : State) : Nat → State
  | 0 => s
  | n + 1 => (s.loadRegs n).writeV (Fin.ofNat 16 n) (s.memRead (s.dataAddr n))

/-- Some of the n bytes written from I on would fall in the font table under FONT_WRITE_POLICY = fault (R74, R406). -/
def State.fontHit (s : State) (n : Nat) : Bool :=
  decide (s.cfg.fontWritePolicy = .fault) && (List.range n).any fun k => inFont s.cfg (s.dataAddr k)

/-- Store bytes from I on unless the font rule R74 raises FONT_WRITE; `w` is the word of the instruction. -/
def storeAtI (s : State) (w : Word) (bs : List Byte) : Result :=
  if s.fontHit bs.length then raiseFault s .fontWrite w else .next (s.storeBytes (s.dataAddr 0) bs)

/-- The skip: one extra instruction width when the condition holds (R120). -/
def skipIf (s : State) (cond : Bool) : Result := .next (if cond then s.advance else s)

/-- The skip of Ex9E and ExA1 on the state of the key that V[x] names, or KEY_RANGE when it names none (R260). -/
def skipOnKey (s : State) (x : Reg) (down : Bool) (w : Word) : Result :=
  match keyOf (s.readV x) with
  | none => raiseFault s .keyRange w
  | some k => skipIf s (s.keyDown k == down)

/-- `S`, the keys that satisfy the wait of an Fx0A, by KEYWAIT_TRIGGER (R285). -/
def State.waitKeys (s : State) : Word :=
  match s.cfg.keywaitTrigger with
  | .level => s.key
  | .edge => if s.awaiting then s.key &&& ~~~s.kwPrev else 0

/-- The lowest-numbered key of a non-empty set: the default of KEYWAIT_SELECT (R8, D11). -/
def lowestKey (set : Word) : Reg := Fin.ofNat 16 (((List.range 16).find? fun k => set.getLsbD k).getD 0)

/-- `select_key(S)` (R14): the parameter's choice for this set where it lists one of its keys, else the lowest-numbered. -/
def selectKey (c : Config) (set : Word) : Reg :=
  match c.keywaitSelect.lookup set with
  | some k => if set.getLsbD k then k else lowestKey set
  | none => lowestKey set

end Sys2Proof.Machine
end

