-- ==== Sys2Proof/Machine/Flags.lean ====
section
/-! DEFINITION. The flag computations: the core's only flag is the value of VF (R35, R37), always computed from the operand
values before any write (R160) and written last (R36). -/

namespace Sys2Proof.Machine

/-- A flag as the byte VF holds: 1 or 0. -/
def flagByte (f : Bool) : Byte := if f then 1 else 0

/-- The carry of 8xy4: the sum exceeds 255 (R173). -/
def carryOut (a b : Byte) : Bool := decide (255 < a.toNat + b.toNat)

/-- No borrow of `a - b`: the minuend is not below the subtrahend (R174, R180). -/
def noBorrow (a b : Byte) : Bool := decide (b.toNat ≤ a.toNat)

/-- The bit a right shift by one shifts out (R175). -/
def bitOutRight (a : Byte) : Bool := a.getLsbD 0

/-- The bit a left shift by one shifts out (R185). -/
def bitOutLeft (a : Byte) : Bool := a.getLsbD 7

/-- Write a result and then the flag: for x = 0xF the flag is what VF keeps (R36, R160). -/
def State.writeFlagged (s : State) (x : Reg) (result : Byte) (flag : Bool) : State :=
  (s.writeV x result).writeV vF (flagByte flag)

end Sys2Proof.Machine
end

