-- ==== Sys2Proof/Machine/Alu.lean ====
section
/-! DEFINITION. The meanings of 41_alu.md. Addition and subtraction of bytes are modulo 256 (R160, R186). -/

namespace Sys2Proof.Machine

/-- LD Vx, kk (R161). -/
def execLdImm (x : Reg) (kk : Byte) (s : State) : Result := .next (s.writeV x kk)

/-- ADD Vx, kk: no flag (R163). -/
def execAddImm (x : Reg) (kk : Byte) (s : State) : Result := .next (s.writeV x (s.readV x + kk))

/-- LD Vx, Vy (R165). -/
def execLdReg (x y : Reg) (s : State) : Result := .next (s.writeV x (s.readV y))

/-- OR Vx, Vy: VF is not reset (R167). -/
def execOr (x y : Reg) (s : State) : Result := .next (s.writeV x (s.readV x ||| s.readV y))

/-- AND Vx, Vy: VF is not reset (R169). -/
def execAnd (x y : Reg) (s : State) : Result := .next (s.writeV x (s.readV x &&& s.readV y))

/-- XOR Vx, Vy: VF is not reset (R171). -/
def execXor (x y : Reg) (s : State) : Result := .next (s.writeV x (s.readV x ^^^ s.readV y))

/-- ADD Vx, Vy, with the carry in VF (R173). -/
def execAddReg (x y : Reg) (s : State) : Result :=
  .next (s.writeFlagged x (s.readV x + s.readV y) (carryOut (s.readV x) (s.readV y)))

/-- SUB Vx, Vy, with no-borrow in VF (R174). -/
def execSub (x y : Reg) (s : State) : Result :=
  .next (s.writeFlagged x (s.readV x - s.readV y) (noBorrow (s.readV x) (s.readV y)))

/-- SHR Vx, with the bit shifted out in VF (R175). -/
def execShr (x : Reg) (s : State) : Result := .next (s.writeFlagged x (s.readV x >>> 1) (bitOutRight (s.readV x)))

/-- SUBN Vx, Vy: Vy - Vx, with no-borrow in VF (R180). -/
def execSubn (x y : Reg) (s : State) : Result :=
  .next (s.writeFlagged x (s.readV y - s.readV x) (noBorrow (s.readV y) (s.readV x)))

/-- SHL Vx, with the bit shifted out in VF (R185). -/
def execShl (x : Reg) (s : State) : Result := .next (s.writeFlagged x (s.readV x <<< 1) (bitOutLeft (s.readV x)))

end Sys2Proof.Machine
end

