-- ==== Sys2Proof/Machine/Control.lean ====
section
/-! DEFINITION. The meanings of 40_control.md. Every meaning runs on the state in which PC is already `(a + 2) mod 4096`
(R16, R96). -/

namespace Sys2Proof.Machine

/-- CLS: every pixel off (R121). -/
def execCls (s : State) : Result := .next (s.setFb clearedFb)

/-- RET: pop the stack into PC, or STACK_UNDERFLOW (R124, R403). -/
def execRet (s : State) : Result :=
  match s.pop with
  | none => raiseFault s .stackUnderflow (encode .ret)
  | some (w, t) => .next (t.setPc (toAddr w))

/-- JP nnn (R127). -/
def execJp (nnn : Addr) (s : State) : Result := .next (s.setPc nnn)

/-- CALL nnn: push PC, the address of the next instruction, or STACK_OVERFLOW (R130, R402). -/
def execCall (nnn : Addr) (s : State) : Result :=
  match s.push s.pc with
  | none => raiseFault s .stackOverflow (encode (.call nnn))
  | some t => .next (t.setPc nnn)

/-- SE Vx, kk (R133). -/
def execSeImm (x : Reg) (kk : Byte) (s : State) : Result := skipIf s (s.readV x == kk)

/-- SNE Vx, kk (R136). -/
def execSneImm (x : Reg) (kk : Byte) (s : State) : Result := skipIf s (s.readV x != kk)

/-- SE Vx, Vy (R139). -/
def execSeReg (x y : Reg) (s : State) : Result := skipIf s (s.readV x == s.readV y)

/-- SNE Vx, Vy (R142). -/
def execSneReg (x y : Reg) (s : State) : Result := skipIf s (s.readV x != s.readV y)

end Sys2Proof.Machine
end

