-- ==== Sys2Proof/Machine/Draw.lean ====
section
/-! DEFINITION. The pixel engine and DRW (43_draw.md), as the loop of R235. -/

namespace Sys2Proof.Machine

/-- The framebuffer and whether a pixel has gone from on to off so far in this draw (R232). -/
abbrev Canvas := Framebuffer × Bool

/-- Toggle one pixel: XOR 1, and a collision if it was on (R232). -/
def togglePixel (px : Fin 64) (py : Fin 32) (p : Canvas) : Canvas :=
  (setPixel p.1 px py (!pixel p.1 px py), p.2 || pixel p.1 px py)

/-- `(x0 + c) mod 64`, the framebuffer column of sprite column c (R231). -/
def spriteColumn (x0 : Byte) (c : Nat) : Fin 64 := Fin.ofNat 64 (x0.toNat + c)

/-- `(y0 + r) mod 32`, the framebuffer row of sprite row r (R231). -/
def spriteRow (y0 : Byte) (r : Nat) : Fin 32 := Fin.ofNat 32 (y0.toNat + r)

/-- Column c of a sprite row: bit 7 - c of its byte, the most significant bit leftmost (R230). -/
def spriteBit (row : Byte) (c : Nat) : Bool := row.getLsbD (7 - c)

/-- The columns below m of one sprite row (R235, inner loop). -/
def drawColumns (x0 : Byte) (py : Fin 32) (row : Byte) (p : Canvas) : Nat → Canvas
  | 0 => p
  | c + 1 =>
    if spriteBit row c then togglePixel (spriteColumn x0 c) py (drawColumns x0 py row p c)
    else drawColumns x0 py row p c

/-- The rows below m of the sprite at I (R235, outer loop): 8 columns each. -/
def drawRows (s : State) (x0 y0 : Byte) : Nat → Canvas
  | 0 => (s.fb, false)
  | r + 1 => drawColumns x0 (spriteRow y0 r) (s.memRead (s.dataAddr r)) (drawRows s x0 y0 r) 8

/-- The state after a draw: the new framebuffer, and VF the collision flag (R235). -/
def finishDraw (s : State) (p : Canvas) : State := (s.setFb p.1).writeV vF (flagByte p.2)

/-- DRW Vx, Vy, n: the coordinates are read before VF is written (R235). -/
def execDrw (x y : Reg) (n : BitVec 4) (s : State) : Result :=
  .next (finishDraw s (drawRows s (s.readV x) (s.readV y) n.toNat))

end Sys2Proof.Machine
end

