-- ==== Sys2Proof/Machine/IndexRandom.lean ====
section
/-! DEFINITION. The meanings of 42_index_jump_random.md. -/

namespace Sys2Proof.Machine

/-- LD I, nnn (R210). -/
def execLdI (nnn : Addr) (s : State) : Result := .next (s.setI nnn)

/-- JP V0, nnn (R213). -/
def execJpV0 (nnn : Addr) (s : State) : Result := .next (s.setPc (s.offsetTarget nnn))

/-- `V[x] <- r AND kk`, the effect of Cxkk for a given draw r (R216). -/
def randomInto (x : Reg) (kk : Byte) (draw : Byte × State) : State := draw.2.writeV x (draw.1 &&& kk)

/-- RND Vx, kk: with the free value of this draw (R216). -/
def execRnd (x : Reg) (kk : Byte) (s : State) : Result := .next (randomInto x kk s.drawRandom)

end Sys2Proof.Machine
end

