-- ==== Sys2Proof/Machine/Keys.lean ====
section
/-! DEFINITION. The meanings of 44_keys.md. -/

namespace Sys2Proof.Machine

/-- SKP Vx: skip if the key is down, or KEY_RANGE (R262). -/
def execSkp (x : Reg) (s : State) : Result := skipOnKey s x true (encode (.skp x))

/-- SKNP Vx: skip if the key is up, or KEY_RANGE (R265). -/
def execSknp (x : Reg) (s : State) : Result := skipOnKey s x false (encode (.sknp x))

end Sys2Proof.Machine
end

