-- ==== Sys2Proof/Machine/Misc.lean ====
section
/-! DEFINITION. The meanings of 45_misc.md. -/

namespace Sys2Proof.Machine

/-- LD Vx, DT (R280). -/
def execLdVxDt (x : Reg) (s : State) : Result := .next (s.writeV x s.dt)

/-- LD Vx, K: take a key that satisfies the wait, or stay pending with PC at this instruction (R285). -/
def execLdVxK (x : Reg) (s : State) : Result :=
  if s.waitKeys = 0 then .next s.keepWaiting else .next (s.writeV x (BitVec.ofNat 8 (selectKey s.cfg s.waitKeys).val)).endWait

/-- LD DT, Vx (R290). -/
def execLdDtVx (x : Reg) (s : State) : Result := .next (s.setDt (s.readV x))

/-- LD ST, Vx (R295). -/
def execLdStVx (x : Reg) (s : State) : Result := .next (s.setSt (s.readV x))

/-- ADD I, Vx: no flag (R300). -/
def execAddI (x : Reg) (s : State) : Result := .next (s.setI (s.indexSum x))

/-- LD F, Vx (R305). -/
def execLdF (x : Reg) (s : State) : Result := .next (s.setI (glyphAddr s.cfg (s.readV x)))

/-- LD B, Vx: the three digits at I, I + 1, I + 2, or FONT_WRITE (R310). -/
def execLdB (x : Reg) (s : State) : Result := storeAtI s (encode (.ldB x)) (bcdDigits (s.readV x))

/-- LD [I], Vx: V0 to Vx from I on, or FONT_WRITE; I is unchanged (R315). -/
def execLdMemVx (x : Reg) (s : State) : Result := storeAtI s (encode (.ldMemVx x)) (s.regsUpTo x)

/-- LD Vx, [I]: V0 to Vx from I on; I is unchanged (R320). -/
def execLdVxMem (x : Reg) (s : State) : Result := .next (s.loadRegs (x.val + 1))

end Sys2Proof.Machine
end

