-- ==== Sys2Proof/Machine/Step.lean ====
section
/-! DEFINITION. The instruction step (R96), the status it returns (R97), and how a word is placed where a step fetches. -/

namespace Sys2Proof.Machine

/-- One step: nothing on a halted core (R412); else fetch, advance, decode and execute (R96). -/
def step (s : State) : Host.Outcome State Fault Refusal :=
  match s.fault with
  | some _ => .next s
  | none => match decode s.fetchWord with
    | .error _ => raiseFault s.advance .illegalOpcode s.fetchWord
    | .ok i => exec i s.advance

/-- What a step returns to the host (R97). -/
inductive Status
  | ok
  | pending
  | faulted
deriving DecidableEq, Repr

/-- The state after a step. Every step has one (`step_next`, Sys2Proof/Laws/Exec.lean). -/
def after (s : State) : State := match step s with
  | .next t => t
  | .fault _ => s
  | .refused _ => s

/-- The status that the step from `s` returns: FAULTED when a fault was raised in it or before, PENDING when the instruction
is an Fx0A and AWAIT = 1 afterwards, else OK (R96, R97). -/
def stepStatus (s : State) : Status :=
  if (after s).fault.isSome then .faulted
  else match decode s.fetchWord with
    | .ok (.ldVxK _) => if (after s).awaiting then .pending else .ok
    | _ => .ok

/-- The state with one instruction word stored at PC, where the next step fetches it (big-endian, R66), on a core that is
not halted, since a halted one fetches nothing (R412). It stands for the host's load (log entry 6). -/
def State.withFetchWord (s : State) (nbits w : Nat) : State :=
  { s with fault := none }.storeBytes (toAddr s.pc) (bytesOfWord (BitVec.ofNat 16 (w % 2 ^ nbits)))

end Sys2Proof.Machine
end

