-- ==== Sys2Proof/Machine/HostInterface.lean ====
section
/-! DEFINITION. The host's moves between steps (R430 to R439). What order they can come in is `Reachable`
(Sys2Proof/Safety.lean). -/

namespace Sys2Proof.Machine

/-- The program load address (R7, R62, R430). -/
def programBase : Addr := 0x200

/-- The most bytes a load can hold, `0x1000 - 0x200` (R63). -/
def maxProgram : Nat := 3584

/-- Program load: the bytes at 0x200 and up, not checked by the font rule (R74, R430). A longer load is no host move. -/
def hostLoad (bs : List Byte) (s : State) : Result :=
  if bs.length ≤ maxProgram then .next (s.storeBytes programBase bs) else .refused .loadTooLong

/-- The key set with only key k. -/
def keyBit (k : Reg) : Word := BitVec.ofNat 16 (2 ^ k.val)

/-- `set_key_state(k, down)`: `KEY[k] <- down` (R432). -/
def setKey (k : Reg) (down : Bool) (s : State) : State :=
  { s with key := if down then s.key ||| keyBit k else s.key &&& ~~~keyBit k }

/-- One tick of a timer: down by one, and 0 stays 0 (R436). -/
def tickTimer (b : Byte) : Byte := if b = 0 then 0 else b - 1

/-- One timer tick of the host (R436). -/
def tick (s : State) : State := { s with dt := tickTimer s.dt, st := tickTimer s.st }

/-- `pixel_at(x, y)` (R433). -/
def pixelAt (s : State) (x : Fin 64) (y : Fin 32) : Bool := pixel s.fb x y

/-- `is_key_down(k)` (R435). -/
def isKeyDown (s : State) (k : Reg) : Bool := s.keyDown k

/-- DT and ST, as the host reads them (R437). -/
def readTimers (s : State) : Byte × Byte := (s.dt, s.st)

/-- AWAIT and FAULT, as the host reads them between steps (R434). -/
def readStatus (s : State) : Bool × Option FaultRecord := (s.awaiting, s.fault)

/-- The moves of the host that change the state (R438). It has no other (R439). -/
inductive HostMove
  | load (bs : List Byte)
  | setKey (k : Reg) (down : Bool)
  | tick
  | reset
deriving DecidableEq, Repr

/-- The effect of a host move. Reset creates a new machine with the same parameters (R413, R450; log entry 14); the model's
draw counter goes on, so that the draws after a reset are not those before it (log entry 3). -/
def hostMove (m : HostMove) (s : State) : Result :=
  match m with
  | .load bs => hostLoad bs s
  | .setKey k down => .next (Sys2Proof.Machine.setKey k down s)
  | .tick => .next (Sys2Proof.Machine.tick s)
  | .reset => .next { State.resetWith s.cfg with draws := s.draws }

end Sys2Proof.Machine
end

