-- ==== Sys2Proof/Machine/Assembler.lean ====
section
/-! DEFINITION. Assembly programs (R106): lines, labels, and the directives DB and ORG, as the bytes they place. -/

namespace Sys2Proof.Machine

/-- One item of a program text. A label is a number here; `jump` is a line whose last operand is a label
(R106 for an nnn operand; DESIGN CHOICE for a kk or n operand, log entry 15). -/
inductive Item
  | line (l : Line)
  | jump (m : Mnemonic) (front : List Operand) (label : Nat)
  | label (name : Nat)
  | db (bytes : List Byte)
  | org (nnn : Addr)
deriving DecidableEq, Repr

/-- How many bytes an item takes. -/
def itemSize : Item → Nat
  | .line _ => 2
  | .jump _ _ _ => 2
  | .label _ => 0
  | .db bytes => bytes.length
  | .org _ => 0

/-- The address after an item at address `a`: ORG sets it (R106). -/
def nextAddr (a : Nat) : Item → Nat
  | .org nnn => nnn.toNat
  | it => a + itemSize it

/-- The address of every label, from address `a` on. -/
def labelAddrs : Nat → List Item → List (Nat × Nat)
  | _, [] => []
  | a, .label name :: rest => (name, a) :: labelAddrs a rest
  | a, it :: rest => labelAddrs (nextAddr a it) rest

/-- The bytes of an item: a line is one word, big-endian (R90, R107); a label means its address. R106 lets a label stand for an
nnn operand and does not say whether it may stand for another. DESIGN CHOICE (log entry 15): it may stand for the last operand of
any line, a kk or n operand too, as the number that is its address, which the check then holds to that operand's range. -/
def itemBytes (labels : List (Nat × Nat)) : Item → Except LineError (List Byte)
  | .line l => l.assemble.map bytesOfWord
  | .jump m front name => match labels.lookup name with
    | some a => (Line.assemble ⟨m, front ++ [.num a]⟩).map bytesOfWord
    | none => .error .shape
  | .label _ => .ok []
  | .db bytes => .ok bytes
  | .org _ => .ok []

/-- Each item's bytes with the address they lie at. -/
def placeItems (labels : List (Nat × Nat)) : Nat → List Item → Except LineError (List (Nat × List Byte))
  | _, [] => .ok []
  | a, it :: rest => do
    let bs ← itemBytes labels it
    let more ← placeItems labels (nextAddr a it) rest
    pure ((a, bs) :: more)

/-- A program text as placed bytes; the next address is 0x200 by default (R106). -/
def assemble (items : List Item) : Except LineError (List (Nat × List Byte)) :=
  placeItems (labelAddrs programBase.toNat items) programBase.toNat items

end Sys2Proof.Machine
end

