-- ==== Sys2Proof/Safety.lean ====
section
/-! DEFINITION. The terms claims are made in: what is unchanged, what an instruction may touch (R34 to R50, R61), the
invariant (R52), the states a run can reach (R430, R431, R455), and the fault conditions (R401). -/

namespace Sys2Proof.Machine

/-- The next state of an outcome, if it has one. -/
def nextState (r : Result) : Option State := match r with
  | .next t => some t
  | .fault _ => none
  | .refused _ => none

/-! ### Frames -/

/-- Every V register but the listed ones is as before. -/
def SameRegs (changed : List Reg) (s t : State) : Prop := ∀ r, r ∉ changed → t.readV r = s.readV r

/-- Every byte of memory but those at the listed addresses reads as before. -/
def SameBytes (stored : List Addr) (s t : State) : Prop := ∀ a, a ∉ stored → t.memRead a = s.memRead a

/-! ### Words and illegal words, by number (R91, R104) -/

/-- The word `oooo nnnn nnnn nnnn` (R91). -/
def wordNNN (op : Nat) (nnn : Addr) : Word := BitVec.ofNat 16 (op * 0x1000 + nnn.toNat)

/-- The word `oooo xxxx kkkk kkkk` (R91). -/
def wordXKK (op : Nat) (x : Reg) (kk : Byte) : Word := BitVec.ofNat 16 (op * 0x1000 + x.val * 0x100 + kk.toNat)

/-- The word `oooo xxxx yyyy nnnn` (R91). -/
def wordXYN (op : Nat) (x y : Reg) (n : BitVec 4) : Word :=
  BitVec.ofNat 16 (op * 0x1000 + x.val * 0x100 + y.val * 0x10 + n.toNat)

/-- The illegal space, as R104 lists it. -/
def inIllegalSpace (w : Word) : Bool :=
  let op := w.toNat / 0x1000
  let kk := w.toNat % 0x100
  let n := w.toNat % 0x10
  (op == 0x0 && w.toNat != 0x00E0 && w.toNat != 0x00EE) || (op == 0x5 && n != 0)
    || (op == 0x8 && [0x8, 0x9, 0xA, 0xB, 0xC, 0xD, 0xF].contains n) || (op == 0x9 && n != 0)
    || (op == 0xE && !([0x9E, 0xA1].contains kk))
    || (op == 0xF && !([0x07, 0x0A, 0x15, 0x18, 0x1E, 0x29, 0x33, 0x55, 0x65].contains kk))

/-! ### The assembler's table (R106) -/

/-- The lines that assemble to an instruction: the row of R106, with the operands written as numbers. Only SHR and SHL have a
second form, with any Vy. -/
def asmLines : Instr → List Line
  | .cls => [⟨.cls, []⟩]
  | .ret => [⟨.ret, []⟩]
  | .jp nnn => [⟨.jp, [.num nnn.toNat]⟩]
  | .call nnn => [⟨.call, [.num nnn.toNat]⟩]
  | .seImm x kk => [⟨.se, [.v x.val, .num kk.toNat]⟩]
  | .sneImm x kk => [⟨.sne, [.v x.val, .num kk.toNat]⟩]
  | .seReg x y => [⟨.se, [.v x.val, .v y.val]⟩]
  | .ldImm x kk => [⟨.ld, [.v x.val, .num kk.toNat]⟩]
  | .addImm x kk => [⟨.add, [.v x.val, .num kk.toNat]⟩]
  | .ldReg x y => [⟨.ld, [.v x.val, .v y.val]⟩]
  | .or x y => [⟨.or, [.v x.val, .v y.val]⟩]
  | .and x y => [⟨.and, [.v x.val, .v y.val]⟩]
  | .xor x y => [⟨.xor, [.v x.val, .v y.val]⟩]
  | .addReg x y => [⟨.add, [.v x.val, .v y.val]⟩]
  | .sub x y => [⟨.sub, [.v x.val, .v y.val]⟩]
  | .shr x => ⟨.shr, [.v x.val]⟩ :: (List.finRange 16).map fun y => ⟨.shr, [.v x.val, .v y.val]⟩
  | .subn x y => [⟨.subn, [.v x.val, .v y.val]⟩]
  | .shl x => ⟨.shl, [.v x.val]⟩ :: (List.finRange 16).map fun y => ⟨.shl, [.v x.val, .v y.val]⟩
  | .sneReg x y => [⟨.sne, [.v x.val, .v y.val]⟩]
  | .ldI nnn => [⟨.ld, [.i, .num nnn.toNat]⟩]
  | .jpV0 nnn => [⟨.jp, [.v 0, .num nnn.toNat]⟩]
  | .rnd x kk => [⟨.rnd, [.v x.val, .num kk.toNat]⟩]
  | .drw x y n => [⟨.drw, [.v x.val, .v y.val, .num n.toNat]⟩]
  | .skp x => [⟨.skp, [.v x.val]⟩]
  | .sknp x => [⟨.sknp, [.v x.val]⟩]
  | .ldVxDt x => [⟨.ld, [.v x.val, .dt]⟩]
  | .ldVxK x => [⟨.ld, [.v x.val, .k]⟩]
  | .ldDtVx x => [⟨.ld, [.dt, .v x.val]⟩]
  | .ldStVx x => [⟨.ld, [.st, .v x.val]⟩]
  | .addI x => [⟨.add, [.i, .v x.val]⟩]
  | .ldF x => [⟨.ld, [.f, .v x.val]⟩]
  | .ldB x => [⟨.ld, [.b, .v x.val]⟩]
  | .ldMemVx x => [⟨.ld, [.atI, .v x.val]⟩]
  | .ldVxMem x => [⟨.ld, [.v x.val, .atI]⟩]

/-! ### What each instruction may touch -/

/-- The V registers an instruction writes: the rows "write" of R34. -/
def writtenRegs : Instr → List Reg
  | .ldImm x _ | .addImm x _ | .ldReg x _ | .or x _ | .and x _ | .xor x _ | .rnd x _ | .ldVxDt x | .ldVxK x => [x]
  | .addReg x _ | .sub x _ | .shr x | .subn x _ | .shl x => [x, vF]
  | .drw _ _ _ => [vF]
  | .ldVxMem x => (List.finRange 16).filter (· ≤ x)
  | .cls | .ret | .jp _ | .call _ | .seImm _ _ | .sneImm _ _ | .seReg _ _ | .sneReg _ _ | .ldI _ | .jpV0 _ | .skp _
  | .sknp _ | .ldDtVx _ | .ldStVx _ | .addI _ | .ldF _ | .ldB _ | .ldMemVx _ => []

/-- The V registers an instruction reads: the rows "read" of R34. -/
def readRegs : Instr → List Reg
  | .seImm x _ | .sneImm x _ | .addImm x _ | .shr x | .shl x | .skp x | .sknp x | .ldDtVx x | .ldStVx x | .addI x | .ldF x
  | .ldB x => [x]
  | .seReg x y | .or x y | .and x y | .xor x y | .addReg x y | .sub x y | .subn x y | .sneReg x y | .drw x y _ => [x, y]
  | .ldReg _ y => [y]
  | .jpV0 _ => [0]
  | .ldMemVx x => (List.finRange 16).filter (· ≤ x)
  | .cls | .ret | .jp _ | .call _ | .ldImm _ _ | .ldI _ | .rnd _ _ | .ldVxDt _ | .ldVxK _ | .ldVxMem _ => []

/-- The instructions that write VF as a side effect (R35). -/
def writesFlag : Instr → Bool
  | .addReg _ _ | .sub _ _ | .shr _ | .subn _ _ | .shl _ | .drw _ _ _ => true
  | .cls | .ret | .jp _ | .call _ | .seImm _ _ | .sneImm _ _ | .seReg _ _ | .ldImm _ _ | .addImm _ _ | .ldReg _ _ | .or _ _
  | .and _ _ | .xor _ _ | .sneReg _ _ | .ldI _ | .jpV0 _ | .rnd _ _ | .skp _ | .sknp _ | .ldVxDt _ | .ldVxK _ | .ldDtVx _
  | .ldStVx _ | .addI _ | .ldF _ | .ldB _ | .ldMemVx _ | .ldVxMem _ => false

/-- How many bytes from I on an instruction writes to memory: the rows "data write" of R61. -/
def writtenBytes : Instr → Nat
  | .ldB _ => 3
  | .ldMemVx x => x.val + 1
  | .cls | .ret | .jp _ | .call _ | .seImm _ _ | .sneImm _ _ | .seReg _ _ | .ldImm _ _ | .addImm _ _ | .ldReg _ _ | .or _ _
  | .and _ _ | .xor _ _ | .addReg _ _ | .sub _ _ | .shr _ | .subn _ _ | .shl _ | .sneReg _ _ | .ldI _ | .jpV0 _ | .rnd _ _
  | .drw _ _ _ | .skp _ | .sknp _ | .ldVxDt _ | .ldVxK _ | .ldDtVx _ | .ldStVx _ | .addI _ | .ldF _ | .ldVxMem _ => 0

/-- The addresses of those bytes, computed as the meanings compute them. -/
def writtenAddrs (i : Instr) (s : State) : List Addr := (List.range (writtenBytes i)).map s.dataAddr

/-- Some of the n bytes from I on lies in the font table while the policy is `fault` (R74, R310, R315), said by
number and not with the test that the meanings call; a decidable proposition. -/
abbrev WritesFont (s : State) (n : Nat) : Prop :=
  s.cfg.fontWritePolicy = .fault ∧ ∃ k, k < n ∧ s.cfg.fontBase.toNat ≤ (s.i.toNat + k) % 4096 ∧
    (s.i.toNat + k) % 4096 < s.cfg.fontBase.toNat + 80

/-- The fault an instruction raises on a state, none where it completes: the conditions of R401 but for the illegal word,
which is found before any instruction runs (R404, R414). -/
def faultOf (i : Instr) (s : State) : Option FaultCode :=
  match i with
  | .call _ => if s.sp.val = 16 then some .stackOverflow else none
  | .ret => if s.sp.val = 0 then some .stackUnderflow else none
  | .skp x => if 16 ≤ (s.readV x).toNat then some .keyRange else none
  | .sknp x => if 16 ≤ (s.readV x).toNat then some .keyRange else none
  | .ldB _ => if WritesFont s 3 then some .fontWrite else none
  | .ldMemVx x => if WritesFont s (x.val + 1) then some .fontWrite else none
  | .cls | .jp _ | .seImm _ _ | .sneImm _ _ | .seReg _ _ | .ldImm _ _ | .addImm _ _ | .ldReg _ _ | .or _ _ | .and _ _
  | .xor _ _ | .addReg _ _ | .sub _ _ | .shr _ | .subn _ _ | .shl _ | .sneReg _ _ | .ldI _ | .jpV0 _ | .rnd _ _
  | .drw _ _ _ | .ldVxDt _ | .ldVxK _ | .ldDtVx _ | .ldStVx _ | .addI _ | .ldF _ | .ldVxMem _ => none

/-- The condition of a skip holds on a state; false for an instruction that is no skip (R120). -/
def skipHolds (i : Instr) (s : State) : Bool :=
  match i with
  | .seImm x kk => decide (s.readV x = kk)
  | .sneImm x kk => decide (s.readV x ≠ kk)
  | .seReg x y => decide (s.readV x = s.readV y)
  | .sneReg x y => decide (s.readV x ≠ s.readV y)
  | .skp x => s.key.getLsbD (s.readV x).toNat
  | .sknp x => !s.key.getLsbD (s.readV x).toNat
  | .cls | .ret | .jp _ | .call _ | .ldImm _ _ | .addImm _ _ | .ldReg _ _ | .or _ _ | .and _ _ | .xor _ _ | .addReg _ _
  | .sub _ _ | .shr _ | .subn _ _ | .shl _ | .ldI _ | .jpV0 _ | .rnd _ _ | .drw _ _ _ | .ldVxDt _ | .ldVxK _ | .ldDtVx _
  | .ldStVx _ | .addI _ | .ldF _ | .ldB _ | .ldMemVx _ | .ldVxMem _ => false

/-- The keys that satisfy a wait, key by key (R285): `level`, the keys down now; `edge`, none at the first attempt, and then
the keys that went down since the last one. -/
def Satisfies (s : State) (k : Reg) : Prop :=
  s.key.getLsbD k.val = true ∧
    (s.cfg.keywaitTrigger = .edge → s.awaiting = true ∧ s.kwPrev.getLsbD k.val = false)

/-- KEYWAIT_SELECT's choice among the keys that satisfy a wait (R8, R14, R285): where the parameter's list (log entry 2) gives
the set of those keys one of them, that key; otherwise the lowest-numbered of them (D11). -/
def Selects (s : State) (k : Reg) : Prop :=
  Satisfies s k ∧ ∀ set : Word, (∀ j : Reg, set.getLsbD j.val = true ↔ Satisfies s j) →
    (∀ e, s.cfg.keywaitSelect.lookup set = some e → Satisfies s e → k = e) ∧
    ((∀ e, s.cfg.keywaitSelect.lookup set = some e → ¬Satisfies s e) → ∀ j, Satisfies s j → k ≤ j)

/-- The table of R40: PC at the end of a step that executes `i` at address `a`, from a state `s` that is not halted. The popped
entry of RET is reduced modulo 4096 (R39, R64; log entry 8). -/
def PcAtEnd (i : Instr) (a : Nat) (s : State) (pc : Nat) : Prop :=
  if (faultOf i s).isSome then pc = a
  else match i with
    | .jp nnn => pc = nnn.toNat
    | .call nnn => pc = nnn.toNat
    | .ret => ∃ j : Fin 16, j.val + 1 = s.sp.val ∧ pc = s.stack[j].toNat % 4096
    | .jpV0 nnn => pc = (nnn.toNat + (s.readV 0).toNat) % 4096
    | .ldVxK _ => ((∃ k, Satisfies s k) → pc = (a + 2) % 4096) ∧ ((¬∃ k, Satisfies s k) → pc = a)
    | .cls | .seImm _ _ | .sneImm _ _ | .seReg _ _ | .ldImm _ _ | .addImm _ _ | .ldReg _ _ | .or _ _ | .and _ _ | .xor _ _
    | .addReg _ _ | .sub _ _ | .shr _ | .subn _ _ | .shl _ | .sneReg _ _ | .ldI _ | .rnd _ _ | .drw _ _ _ | .skp _ | .sknp _
    | .ldVxDt _ | .ldDtVx _ | .ldStVx _ | .addI _ | .ldF _ | .ldB _ | .ldMemVx _ | .ldVxMem _ =>
      pc = if skipHolds i s then (a + 4) % 4096 else (a + 2) % 4096

/-- The sprite of n rows at I, drawn from column x0 and row y0, has a 1 bit that lands on pixel (px, py): bit `7 - c` of its
byte r, with `(x0 + c) mod 64 = px` and `(y0 + r) mod 32 = py` (R230, R231). -/
def SpriteCovers (s : State) (x0 y0 : Byte) (n : Nat) (px : Fin 64) (py : Fin 32) : Prop :=
  ∃ r c : Nat, r < n ∧ c < 8 ∧ px.val = (x0.toNat + c) % 64 ∧ py.val = (y0.toNat + r) % 32 ∧
    (s.memRead (BitVec.ofNat 12 (s.i.toNat + r))).getLsbD (7 - c) = true

/-! ### The invariant (R52) -/

/-- What holds at every step boundary after reset (R52; that every V register, DT and ST is below 256 and SP at most 16 is in
their types), with the canonical form of memory, the domains of the parameters (R8), and what a recorded fault names (R411). -/
structure State.Inv (s : State) : Prop where
  cfg : s.cfg.wf = true
  mem : Memory.wf s.cfg s.mem = true
  i : s.i.toNat < 4096
  pc : s.pc.toNat < 4096
  live : ∀ j : Fin 16, j.val < s.sp.val → s.stack[j].toNat < 4096
  await : s.awaiting = true → ∃ x, decode s.fetchWord = .ok (.ldVxK x)
  fault : ∀ f, s.fault = some f → f.addr = toAddr s.pc ∧ f.word = s.fetchWord

/-! ### Runs -/

/-- The states before the first step of a machine with the parameters `c`: reset (with any number of draws made before it, log
entry 3), and then any host moves, the program load among them (R430, R455; log entries 10 and 11). -/
inductive Booting (c : Config) : State → Prop
  | reset (n : Nat) : Booting c { State.resetWith c with draws := n }
  | load {s t : State} {bs : List Byte} : Booting c s → hostLoad bs s = .next t → Booting c t
  | key {s : State} (k : Reg) (down : Bool) : Booting c s → Booting c (setKey k down s)
  | tick {s : State} : Booting c s → Booting c (tick s)

/-- The states a run can reach: steps, with key writes and timer ticks between them and no load any more (R430 to R432,
R436). A reset begins again at `boot`. -/
inductive Reachable (c : Config) : State → Prop
  | boot {s : State} : Booting c s → Reachable c s
  | step {s t : State} : Reachable c s → step s = .next t → Reachable c t
  | key {s : State} (k : Reg) (down : Bool) : Reachable c s → Reachable c (setKey k down s)
  | tick {s : State} : Reachable c s → Reachable c (tick s)

/-- A run is safe at a state when the core is not halted by a fault (R412). -/
def State.running (s : State) : Bool := s.fault.isNone

end Sys2Proof.Machine
end

