-- ==== Sys2Proof/Certificates/Slice0/Obligations.lean ====
section
/-! DEFINITION. The statements about the model, for the provers. A rule the spec marks "[decision: D<n>]" is a numbered rule of
the spec and is cited as such; a rule it marks "[derived]" is not cited as stated. -/

open Sys2Proof Sys2Proof.Machine

/-! ### Encoding and decode -/

/-- One word of every family, written out from its layout in R91, decodes to its instruction. -/
def Obligations.WordsOfEveryFamilyDecode : Prop :=
  decode 0x00EE = .ok .ret ∧ decode 0x2ABC = .ok (.call 0xABC) ∧ decode 0x3A05 = .ok (.seImm 0xA 0x05) ∧
  decode 0x7F01 = .ok (.addImm 0xF 0x01) ∧ decode 0x8125 = .ok (.sub 1 2) ∧ decode 0x8F06 = .ok (.shr 0xF) ∧
  decode 0x9120 = .ok (.sneReg 1 2) ∧ decode 0xA2F0 = .ok (.ldI 0x2F0) ∧ decode 0xC30F = .ok (.rnd 3 0x0F) ∧
  decode 0xD125 = .ok (.drw 1 2 5) ∧ decode 0xE5A1 = .ok (.sknp 5) ∧ decode 0xF265 = .ok (.ldVxMem 2) ∧
  decode 0x0123 = .error .group0 ∧ decode 0x8128 = .error .group8

/-- Decode gives back every instruction from its encoding, with every operand (R91, R98). -/
def Obligations.DecodeGivesBackTheEncodedInstruction : Prop := ∀ i : Instr, decode (encode i) = .ok i

/-- Encode gives back every legal word, but for the y field of SHR and SHL, which R99 has decode ignore. -/
def Obligations.EncodeGivesBackTheDecodedWord : Prop := ∀ (w : Word) (i : Instr), decode w = .ok i →
  (encode i = w ∧ (∀ x, i ≠ .shr x ∧ i ≠ .shl x)) ∨ (encode i = w &&& 0xFF0F ∧ ∃ x, i = .shr x ∨ i = .shl x)

/-- The fields are extracted as the source's operand decoder extracts them (R92). -/
def Obligations.FieldsAreExtractedAsInTheSource : Prop := ∀ w : Word,
  nnnField w = (w &&& 0x0FFF).setWidth 12 ∧ (xField w).val = ((w >>> 8) &&& 0x0F).toNat ∧
  (yField w).val = ((w >>> 4) &&& 0x0F).toNat ∧ kkField w = (w &&& 0x00FF).setWidth 8 ∧
  nField w = (w &&& 0x000F).setWidth 4

/-- A word is illegal exactly when R104 lists it in the illegal space. -/
def Obligations.IllegalWordsAreTheIllegalSpace : Prop := ∀ w : Word,
  (∃ e, decode w = .error e) ↔ inIllegalSpace w = true

/-- The check accepts exactly the lines of the table of R106, each as its row's instruction; a line that passes it assembles to
one word, which decodes to that instruction (R107); and SHR and SHL have the written Vy in y, or 0 without one. -/
def Obligations.AssembledLinesDecodeToTheirInstruction : Prop := ∀ l : Line,
  (∀ w, l.assemble = .ok w → ∃ i, l.check = .ok i ∧ decode w = .ok i) ∧
  (∀ i, l.check = .ok i → ∃ w, l.assemble = .ok w) ∧
  (∀ i, l.check = .ok i ↔ l ∈ asmLines i) ∧
  (∀ x y : Reg,
    (l = ⟨.shr, [.v x.val]⟩ → l.assemble = .ok (wordXYN 0x8 x 0 0x6)) ∧
    (l = ⟨.shl, [.v x.val]⟩ → l.assemble = .ok (wordXYN 0x8 x 0 0xE)) ∧
    (l = ⟨.shr, [.v x.val, .v y.val]⟩ → l.assemble = .ok (wordXYN 0x8 x y 0x6)) ∧
    (l = ⟨.shl, [.v x.val, .v y.val]⟩ → l.assemble = .ok (wordXYN 0x8 x y 0xE)))

/-! ### The step -/

/-- A step on a core that is not halted runs the decoded instruction, after PC has gone to `(a + 2) mod 4096` (R16, R96). -/
def Obligations.StepRunsTheDecodedInstruction : Prop := ∀ (s : State) (i : Instr), s.fault = none →
  decode s.fetchWord = .ok i → step s = exec i { s with pc := BitVec.ofNat 16 ((s.pc.toNat + 2) % 4096) }

/-- Fetch reads the two bytes at PC, the byte at the lower address being the high half; at 0xFFF the second byte comes from
0x000 (R66). -/
def Obligations.FetchReadsTheBigEndianWordAtPc : Prop := ∀ (s : State) (a : Addr), s.pc.toNat = a.toNat →
  s.fetchWord.toNat = (s.memRead a).toNat * 256 + (s.memRead (BitVec.ofNat 12 (a.toNat + 1))).toNat ∧
  (a = 0xFFF → s.fetchWord.toNat = (s.memRead 0xFFF).toNat * 256 + (s.memRead 0x000).toNat)

/-- An illegal word raises ILLEGAL_OPCODE, halts the core and changes nothing else (R404). -/
def Obligations.IllegalWordRaisesAndHalts : Prop := ∀ (s : State) (a : Addr), s.fault = none → s.pc.toNat = a.toNat →
  inIllegalSpace s.fetchWord = true →
  step s = .next { s with fault := some ⟨.illegalOpcode, a, s.fetchWord⟩ } ∧ stepStatus s = .faulted

/-- A halted core: a step changes no state and returns FAULTED, and no host move but reset clears FAULT (R412). -/
def Obligations.HaltedCoreChangesNothing : Prop := ∀ (s : State) (f : FaultRecord), s.fault = some f →
  step s = .next s ∧ stepStatus s = .faulted ∧
  ∀ (m : HostMove) (t : State), hostMove m s = .next t → m ≠ .reset → t.fault = some f

/-- Fault entry sets PC back to the instruction and records (code, a, w), and nothing else changes, for every fault of every
step (R410). -/
def Obligations.FaultEntryChangesPcAndFaultOnly : Prop := ∀ (s t : State) (f : FaultRecord), s.fault = none →
  step s = .next t → t.fault = some f →
  f.addr.toNat = s.pc.toNat % 4096 ∧ f.word = s.fetchWord ∧
  t = { s with pc := BitVec.ofNat 16 (s.pc.toNat % 4096), fault := some f } ∧ stepStatus s = .faulted

/-- A step faults exactly on the conditions of R401, with that condition's code and number, the address and the word. -/
def Obligations.StepFaultsExactlyAsTheTableSays : Prop :=
  (∀ s t : State, s.fault = none → step s = .next t →
    t.fault = (match decode s.fetchWord with
      | .error _ => some FaultCode.illegalOpcode
      | .ok i => faultOf i s).map fun c => ⟨c, BitVec.ofNat 12 s.pc.toNat, s.fetchWord⟩) ∧
  faultNumber .stackOverflow = 1 ∧ faultNumber .stackUnderflow = 2 ∧ faultNumber .illegalOpcode = 3 ∧
  faultNumber .keyRange = 4 ∧ faultNumber .fontWrite = 5

/-- A step returns PENDING exactly when it leaves an Fx0A waiting, FAULTED exactly when it leaves FAULT set, else OK; a
PENDING step leaves PC and every V register as they were (R97). -/
def Obligations.StatusSaysHowTheStepEnded : Prop := ∀ s t : State, step s = .next t →
  (stepStatus s = .faulted ↔ t.fault ≠ none) ∧
  (stepStatus s = .pending ↔ t.fault = none ∧ (∃ x, decode s.fetchWord = .ok (.ldVxK x)) ∧ t.awaiting = true) ∧
  (stepStatus s = .pending → t.pc.toNat = s.pc.toNat % 4096 ∧ t.v = s.v)

/-- PC at the end of every step is what the table of R40 says; an illegal word is an instruction that raises a fault. That RET
ends at its popped entry modulo 4096, where the table has the entry itself, is the model's reading of R39 and R64 in states
that no run reaches (log entry 8). -/
def Obligations.PcEndsAsTheTableSays : Prop := ∀ s t : State, s.fault = none → step s = .next t →
  match decode s.fetchWord with
  | .error _ => t.pc.toNat = s.pc.toNat % 4096
  | .ok i => PcAtEnd i (s.pc.toNat % 4096) s t.pc.toNat

/-! ### The invariant and runs -/

/-- Every step keeps the invariant of R52, from every state that meets it. -/
def Obligations.InvariantIsKeptByEveryStep : Prop := ∀ s t : State, s.Inv → step s = .next t → t.Inv

/-- The invariant holds after reset, with any parameters in the domains of R8. -/
def Obligations.InvariantHoldsAfterReset : Prop := ∀ c : Config, c.wf = true → (State.resetWith c).Inv

/-- Every state a run can reach meets the invariant, with the parameters it was reset with: reset, any program load before the
first step, and then steps, key writes and timer ticks in any order. `Booting` and `Reachable`, which say that order, rest on
log entries 3 (the draw counter goes on over a reset), 10 (the host's moves beside the step) and 11 (loads before the first
step). -/
def Obligations.ReachableStatesMeetTheInvariant : Prop := ∀ (c : Config) (s : State), c.wf = true → Reachable c s →
  s.Inv ∧ s.cfg = c

/-- What reset leaves (R53): every byte of memory, and every register. The values of I, STACK, SP, DT, ST, KEY, AWAIT,
KW_PREV and FAULT are the spec's decision D16 (log entry 4). A host reset leaves that state, with the same parameters and the
model's draw counter going on (log entries 3 and 14). -/
def Obligations.ResetLeavesTheResetValues : Prop :=
  (∀ s : State, hostMove .reset s = .next { State.resetWith s.cfg with draws := s.draws }) ∧ ∀ c : Config, c.wf = true →
  (∀ a : Addr, (a.toNat < c.fontBase.toNat ∨ c.fontBase.toNat + 80 ≤ a.toNat) → (State.resetWith c).memRead a = 0) ∧
  (∀ j : Fin 80, (State.resetWith c).memRead (BitVec.ofNat 12 (c.fontBase.toNat + j.val)) = c.fontData[j]) ∧
  (∀ r, (State.resetWith c).readV r = 0) ∧ (State.resetWith c).pc = 0x0200 ∧
  (∀ px py, pixel (State.resetWith c).fb px py = false) ∧
  (State.resetWith c).i = 0 ∧ (∀ j : Fin 16, (State.resetWith c).stack[j] = 0) ∧ (State.resetWith c).sp = 0 ∧
  (State.resetWith c).dt = 0 ∧ (State.resetWith c).st = 0 ∧ (∀ k, (State.resetWith c).keyDown k = false) ∧
  (State.resetWith c).awaiting = false ∧ (State.resetWith c).kwPrev = 0 ∧ (State.resetWith c).fault = none

/-! ### What instructions touch, over all of them -/

/-- No instruction writes a V register outside the write rows of R34. -/
def Obligations.RegistersAreWrittenOnlyByTheirWriters : Prop := ∀ (i : Instr) (s t : State), exec i s = .next t →
  SameRegs (writtenRegs i) s t

/-- No instruction depends on a V register outside the read rows of R34: on two states that differ in other V registers only,
it does the same, and what it writes to V is the same. For Cxkk this rests on log entry 3: the two states have the same draw
counter, so the model gives both the same draw. -/
def Obligations.RegistersAreReadOnlyByTheirReaders : Prop := ∀ (i : Instr) (s s' t t' : State),
  s' = { s with v := s'.v } → (∀ r ∈ readRegs i, s'.readV r = s.readV r) →
  exec i s = .next t → exec i s' = .next t' →
  t' = { t with v := t'.v } ∧
  ∀ r ∈ writtenRegs i, t'.readV r = t.readV r ∨ (t.readV r = s.readV r ∧ t'.readV r = s'.readV r)

/-- VF as a flag (R35): the six flag writers leave 0 or 1 in it, and any other instruction leaves it alone unless it names
it as its destination. -/
def Obligations.FlagIsWrittenOnlyByTheSixFlagWriters : Prop := ∀ (i : Instr) (s t : State), exec i s = .next t →
  (writesFlag i = true → t.readV vF = 0 ∨ t.readV vF = 1) ∧
  (writesFlag i = false → (∀ x, x ∈ writtenRegs i → x ≠ vF) → t.readV vF = s.readV vF)

/-- Every byte of memory outside the data writes of R61, at `I + k` as the meanings compute it, reads as before. -/
def Obligations.MemoryIsWrittenOnlyWhereTheTableSays : Prop := ∀ (i : Instr) (s t : State),
  Memory.wf s.cfg s.mem = true → exec i s = .next t → SameBytes (writtenAddrs i s) s t

/-- Only Annn, Fx1E and Fx29 write I, and what they write is below 4096 (R38). -/
def Obligations.IndexIsWrittenOnlyByItsWriters : Prop := ∀ (i : Instr) (s t : State), exec i s = .next t →
  (t.i = s.i ∨ ((∃ n, i = .ldI n) ∨ (∃ x, i = .addI x) ∨ ∃ x, i = .ldF x)) ∧ (s.i.toNat < 4096 → t.i.toNat < 4096)

/-- Only 2nnn and 00EE touch the stack pointer, and only 2nnn an entry, the one at SP (R42 to R44). -/
def Obligations.StackIsTouchedOnlyByCallAndReturn : Prop := ∀ (i : Instr) (s t : State), exec i s = .next t →
  (t.sp = s.sp ∨ i = .ret ∨ ∃ n, i = .call n) ∧
  (∀ j : Fin 16, t.stack[j] = s.stack[j] ∨ ((∃ n, i = .call n) ∧ j.val = s.sp.val))

/-- Only Fx15 writes DT, only Fx18 ST, only 00E0 and Dxyn the framebuffer, only Fx0A AWAIT and KW_PREV (R45, R46, R48, R49),
and only Cxkk takes a draw (R14). -/
def Obligations.TimersScreenAndWaitHaveTheirWriters : Prop := ∀ (i : Instr) (s t : State), exec i s = .next t →
  (t.dt = s.dt ∨ ∃ x, i = .ldDtVx x) ∧ (t.st = s.st ∨ ∃ x, i = .ldStVx x) ∧
  (t.fb = s.fb ∨ i = .cls ∨ ∃ x y n, i = .drw x y n) ∧
  (t.awaiting = s.awaiting ∧ t.kwPrev = s.kwPrev ∨ ∃ x, i = .ldVxK x) ∧
  (t.draws = s.draws ∨ ∃ x kk, i = .rnd x kk)

/-- No step writes a key or a parameter: only the host writes KEY (R47), and the parameters are fixed for a run (R31). -/
def Obligations.KeysAndParametersAreNotWrittenByAStep : Prop := ∀ s t : State, step s = .next t →
  t.key = s.key ∧ t.cfg = s.cfg

/-! ### Control flow -/

/-- CLS turns every pixel off and changes nothing else (R121). -/
def Obligations.ClsClearsTheScreen : Prop := decode 0x00E0 = .ok .cls ∧ ∀ s : State, ∃ t, exec .cls s = .next t ∧
  (∀ px py, pixel t.fb px py = false) ∧ t = { s with fb := t.fb }

/-- RET pops the stack into PC, or raises STACK_UNDERFLOW when it is empty (R124, R403). That PC is the entry modulo 4096, where
R124 writes the entry itself, is the model's reading of R39 and R64 in states that no run reaches (log entry 8). -/
def Obligations.RetPopsTheStackIntoPc : Prop := decode 0x00EE = .ok .ret ∧
  (∀ (s : State) (j : Fin 16), s.sp.val = j.val + 1 → ∃ t, exec .ret s = .next t ∧ t.sp.val = j.val ∧
    t.pc.toNat = s.stack[j].toNat % 4096 ∧ t = { s with sp := t.sp, pc := t.pc }) ∧
  (∀ (s : State) (a : Addr), s.pc.toNat = (a.toNat + 2) % 4096 → s.sp.val = 0 →
    exec .ret s = .next { s with pc := BitVec.ofNat 16 a.toNat, fault := some ⟨.stackUnderflow, a, 0x00EE⟩ })

/-- JP sets PC to its address and changes nothing else (R127). -/
def Obligations.JpSetsPc : Prop := ∀ nnn : Addr, decode (wordNNN 0x1 nnn) = .ok (.jp nnn) ∧
  ∀ s : State, exec (.jp nnn) s = .next { s with pc := BitVec.ofNat 16 nnn.toNat }

/-- CALL pushes the address of the next instruction and jumps, or raises STACK_OVERFLOW when the stack is full (R130, R402). -/
def Obligations.CallPushesAndJumps : Prop := ∀ nnn : Addr, decode (wordNNN 0x2 nnn) = .ok (.call nnn) ∧
  (∀ (s : State) (j : Fin 16), s.sp.val = j.val → ∃ t, exec (.call nnn) s = .next t ∧ t.sp.val = j.val + 1 ∧
    t.stack[j] = s.pc ∧ (∀ k : Fin 16, k ≠ j → t.stack[k] = s.stack[k]) ∧ t.pc.toNat = nnn.toNat ∧
    t = { s with stack := t.stack, sp := t.sp, pc := t.pc }) ∧
  (∀ (s : State) (a : Addr), s.pc.toNat = (a.toNat + 2) % 4096 → s.sp.val = 16 →
    exec (.call nnn) s =
      .next { s with pc := BitVec.ofNat 16 a.toNat, fault := some ⟨.stackOverflow, a, wordNNN 0x2 nnn⟩ })

/-- A RET goes back to the instruction after the CALL that pushed its address, and restores the stack pointer, whatever ran in
between, as long as it left the stack and SP as the CALL did (the source's stack round trip; R43, R124, R130). -/
def Obligations.ReturnGoesBackAfterCall : Prop := ∀ (nnn : Addr) (s t t' u : State), s.sp.val < 16 →
  exec (.call nnn) s = .next t → t'.stack = t.stack → t'.sp = t.sp → exec .ret t' = .next u →
  u.pc.toNat = s.pc.toNat % 4096 ∧ u.sp = s.sp ∧ u.fault = t'.fault

/-- SE Vx, kk and SNE Vx, kk advance PC by 2 more when their condition holds, and change nothing else (R133, R136). -/
def Obligations.ImmediateSkipsAdvancePc : Prop := ∀ (x : Reg) (kk : Byte),
  decode (wordXKK 0x3 x kk) = .ok (.seImm x kk) ∧ decode (wordXKK 0x4 x kk) = .ok (.sneImm x kk) ∧
  ∀ s : State,
    exec (.seImm x kk) s = .next (if s.readV x = kk then { s with pc := BitVec.ofNat 16 ((s.pc.toNat + 2) % 4096) } else s) ∧
    exec (.sneImm x kk) s = .next (if s.readV x = kk then s else { s with pc := BitVec.ofNat 16 ((s.pc.toNat + 2) % 4096) })

/-- SE Vx, Vy and SNE Vx, Vy advance PC by 2 more when their condition holds, and change nothing else (R139, R142). -/
def Obligations.RegisterSkipsAdvancePc : Prop := ∀ x y : Reg,
  decode (wordXYN 0x5 x y 0) = .ok (.seReg x y) ∧ decode (wordXYN 0x9 x y 0) = .ok (.sneReg x y) ∧
  (∀ n : BitVec 4, n ≠ 0 → decode (wordXYN 0x5 x y n) = .error .group5 ∧ decode (wordXYN 0x9 x y n) = .error .group9) ∧
  ∀ s : State,
    exec (.seReg x y) s =
      .next (if s.readV x = s.readV y then { s with pc := BitVec.ofNat 16 ((s.pc.toNat + 2) % 4096) } else s) ∧
    exec (.sneReg x y) s =
      .next (if s.readV x = s.readV y then s else { s with pc := BitVec.ofNat 16 ((s.pc.toNat + 2) % 4096) })

/-! ### Loads and ALU -/

/-- LD Vx, kk (R161). -/
def Obligations.LdImmLoadsTheImmediate : Prop := ∀ (x : Reg) (kk : Byte), decode (wordXKK 0x6 x kk) = .ok (.ldImm x kk) ∧
  ∀ s : State, ∃ t, exec (.ldImm x kk) s = .next t ∧ t.readV x = kk ∧ SameRegs [x] s t ∧ t = { s with v := t.v }

/-- ADD Vx, kk wraps modulo 256 and leaves VF alone unless x names it (R163). -/
def Obligations.AddImmAddsModulo256WithoutFlag : Prop := ∀ (x : Reg) (kk : Byte),
  decode (wordXKK 0x7 x kk) = .ok (.addImm x kk) ∧
  ∀ s : State, ∃ t, exec (.addImm x kk) s = .next t ∧ (t.readV x).toNat = ((s.readV x).toNat + kk.toNat) % 256 ∧
    (x ≠ vF → t.readV vF = s.readV vF) ∧ SameRegs [x] s t ∧ t = { s with v := t.v }

/-- LD Vx, Vy (R165). -/
def Obligations.LdRegCopiesTheRegister : Prop := ∀ x y : Reg, decode (wordXYN 0x8 x y 0x0) = .ok (.ldReg x y) ∧
  ∀ s : State, ∃ t, exec (.ldReg x y) s = .next t ∧ t.readV x = s.readV y ∧ SameRegs [x] s t ∧ t = { s with v := t.v }

/-- OR, AND and XOR, bit by bit; VF is not reset (R167, R169, R171). -/
def Obligations.LogicOperationsWorkBitByBit : Prop := ∀ x y : Reg,
  decode (wordXYN 0x8 x y 0x1) = .ok (.or x y) ∧ decode (wordXYN 0x8 x y 0x2) = .ok (.and x y) ∧
  decode (wordXYN 0x8 x y 0x3) = .ok (.xor x y) ∧
  ∀ s : State,
    (∃ t, exec (.or x y) s = .next t ∧ SameRegs [x] s t ∧ t = { s with v := t.v } ∧
      ∀ b, (t.readV x).getLsbD b = ((s.readV x).getLsbD b || (s.readV y).getLsbD b)) ∧
    (∃ t, exec (.and x y) s = .next t ∧ SameRegs [x] s t ∧ t = { s with v := t.v } ∧
      ∀ b, (t.readV x).getLsbD b = ((s.readV x).getLsbD b && (s.readV y).getLsbD b)) ∧
    (∃ t, exec (.xor x y) s = .next t ∧ SameRegs [x] s t ∧ t = { s with v := t.v } ∧
      ∀ b, (t.readV x).getLsbD b = ((s.readV x).getLsbD b != (s.readV y).getLsbD b))

/-- ADD Vx, Vy: the sum modulo 256, VF the carry; for x = F the flag is what VF keeps (R173, R36). -/
def Obligations.AddRegAddsWithCarryInVf : Prop := ∀ x y : Reg, decode (wordXYN 0x8 x y 0x4) = .ok (.addReg x y) ∧
  ∀ s : State, ∃ t, exec (.addReg x y) s = .next t ∧
    (t.readV vF).toNat = (if (s.readV x).toNat + (s.readV y).toNat > 255 then 1 else 0) ∧
    (x ≠ vF → (t.readV x).toNat = ((s.readV x).toNat + (s.readV y).toNat) % 256) ∧
    SameRegs [x, vF] s t ∧ t = { s with v := t.v }

/-- SUB and SUBN: the integer difference modulo 256, VF 1 when no borrow occurs (R174, R180, R36). -/
def Obligations.SubtractionsSubtractWithNoBorrowInVf : Prop := ∀ x y : Reg,
  decode (wordXYN 0x8 x y 0x5) = .ok (.sub x y) ∧ decode (wordXYN 0x8 x y 0x7) = .ok (.subn x y) ∧
  ∀ s : State,
    (∃ t, exec (.sub x y) s = .next t ∧
      (t.readV vF).toNat = (if (s.readV x).toNat ≥ (s.readV y).toNat then 1 else 0) ∧
      (x ≠ vF → ((t.readV x).toNat : Int) = ((s.readV x).toNat - (s.readV y).toNat : Int) % 256) ∧
      SameRegs [x, vF] s t ∧ t = { s with v := t.v }) ∧
    (∃ t, exec (.subn x y) s = .next t ∧
      (t.readV vF).toNat = (if (s.readV y).toNat ≥ (s.readV x).toNat then 1 else 0) ∧
      (x ≠ vF → ((t.readV x).toNat : Int) = ((s.readV y).toNat - (s.readV x).toNat : Int) % 256) ∧
      SameRegs [x, vF] s t ∧ t = { s with v := t.v })

/-- SHR and SHL shift Vx by one, whatever the y field, with the bit shifted out in VF (R175, R185, R36). -/
def Obligations.ShiftsShiftVxByOne : Prop := ∀ x y : Reg,
  decode (wordXYN 0x8 x y 0x6) = .ok (.shr x) ∧ decode (wordXYN 0x8 x y 0xE) = .ok (.shl x) ∧
  ∀ s : State,
    (∃ t, exec (.shr x) s = .next t ∧ (t.readV vF).toNat = (s.readV x).toNat % 2 ∧
      (x ≠ vF → (t.readV x).toNat = (s.readV x).toNat / 2) ∧ SameRegs [x, vF] s t ∧ t = { s with v := t.v }) ∧
    (∃ t, exec (.shl x) s = .next t ∧ (t.readV vF).toNat = (s.readV x).toNat / 128 ∧
      (x ≠ vF → (t.readV x).toNat = (s.readV x).toNat * 2 % 256) ∧ SameRegs [x, vF] s t ∧ t = { s with v := t.v })

/-! ### Index, jump with offset, random -/

/-- LD I, nnn (R210). -/
def Obligations.LdILoadsTheAddress : Prop := ∀ nnn : Addr, decode (wordNNN 0xA nnn) = .ok (.ldI nnn) ∧
  ∀ s : State, exec (.ldI nnn) s = .next { s with i := BitVec.ofNat 16 nnn.toNat }

/-- JP V0, nnn: the sum with V0 modulo 4096, and nothing else changes (R213). -/
def Obligations.JpV0JumpsToTheSum : Prop := ∀ nnn : Addr, decode (wordNNN 0xB nnn) = .ok (.jpV0 nnn) ∧
  ∀ s : State, exec (.jpV0 nnn) s =
    .next { s with pc := BitVec.ofNat 16 ((nnn.toNat + (s.readV 0).toNat) % 4096) }

/-- RND: the draw AND kk, for the free value of this draw and, in the same operation, for every byte in its place; the model
numbers its draws with a counter (R216; log entry 3 for the counter). -/
def Obligations.RndMasksTheDraw : Prop := ∀ (x : Reg) (kk : Byte), decode (wordXKK 0xC x kk) = .ok (.rnd x kk) ∧
  (∀ s : State, ∃ t, exec (.rnd x kk) s = .next t ∧ t.readV x = Config.randomByte s.draws &&& kk ∧ SameRegs [x] s t ∧
    t = { s with v := t.v, draws := s.draws + 1 }) ∧
  (∀ (s : State) (r : Byte), ∀ b, ((randomInto x kk (r, s)).readV x).getLsbD b = (r.getLsbD b && kk.getLsbD b))

/-! ### Draw -/

/-- DRW toggles exactly the pixels its sprite's 1 bits land on, wrapping per pixel, and sets VF to whether one of them was on;
nothing else changes (R230, R231, R235). -/
def Obligations.DrwTogglesTheCoveredPixels : Prop := ∀ (x y : Reg) (n : BitVec 4),
  decode (wordXYN 0xD x y n) = .ok (.drw x y n) ∧
  ∀ s : State, ∃ t, exec (.drw x y n) s = .next t ∧
    (∀ px py, SpriteCovers s (s.readV x) (s.readV y) n.toNat px py → pixel t.fb px py = !pixel s.fb px py) ∧
    (∀ px py, ¬SpriteCovers s (s.readV x) (s.readV y) n.toNat px py → pixel t.fb px py = pixel s.fb px py) ∧
    ((∃ px py, SpriteCovers s (s.readV x) (s.readV y) n.toNat px py ∧ pixel s.fb px py = true) → t.readV vF = 1) ∧
    ((¬∃ px py, SpriteCovers s (s.readV x) (s.readV y) n.toNat px py ∧ pixel s.fb px py = true) → t.readV vF = 0) ∧
    SameRegs [vF] s t ∧ t = { s with fb := t.fb, v := t.v }

/-- Draw is its own inverse: a second draw of the same sprite at the same place restores the framebuffer (the first sentence of
R236), and reports a collision exactly when the first one turned a pixel on; where the first one reported none, that is exactly
when the sprite has a 1 bit (the second sentence of R236, whose reason, that every pixel the first draw toggled it toggled on,
holds there). Elsewhere that sentence does not follow from R232 and R235: log entry 12. -/
def Obligations.DrawingTwiceRestoresTheScreen : Prop := ∀ (x y : Reg) (n : BitVec 4) (s t s' t' : State),
  exec (.drw x y n) s = .next t → s'.fb = t.fb → s'.readV x = s.readV x → s'.readV y = s.readV y →
  (∀ r, r < n.toNat → s'.memRead (s'.dataAddr r) = s.memRead (s.dataAddr r)) → exec (.drw x y n) s' = .next t' →
  t'.fb = s.fb ∧ (t'.readV vF = 1 ↔ ∃ px py, pixel s.fb px py = false ∧ pixel t.fb px py = true) ∧
  (t.readV vF = 0 →
    (t'.readV vF = 1 ↔ ∃ r c, r < n.toNat ∧ c < 8 ∧ (s.memRead (s.dataAddr r)).getLsbD (7 - c) = true))

/-- VF is 1 exactly when a draw turns at least one pixel off; the '0' glyph drawn on an empty framebuffer at (0, 0) reports 0,
and drawn again there reports 1 (R237). -/
def Obligations.CollisionIsAPixelTurnedOff : Prop :=
  (∀ (x y : Reg) (n : BitVec 4) (s t : State), exec (.drw x y n) s = .next t →
    (t.readV vF = 1 ↔ ∃ px py, pixel s.fb px py = true ∧ pixel t.fb px py = false)) ∧
  (∀ (x y : Reg) (s t s' t' : State), (∀ px py, pixel s.fb px py = false) → s.readV x = 0 → s.readV y = 0 →
    (∀ r : Fin 5, s.memRead (s.dataAddr r.val) = [0xF0, 0x90, 0x90, 0x90, 0xF0][r]) →
    exec (.drw x y 5) s = .next t → s'.fb = t.fb → s'.readV x = 0 → s'.readV y = 0 →
    (∀ r : Fin 5, s'.memRead (s'.dataAddr r.val) = [0xF0, 0x90, 0x90, 0x90, 0xF0][r]) →
    exec (.drw x y 5) s' = .next t' → t.readV vF = 0 ∧ t'.readV vF = 1)

/-! ### Keys -/

/-- SKP and SKNP skip on the key that Vx names, or raise KEY_RANGE from 16 up (R260, R262, R265, R405). -/
def Obligations.KeySkipsTestTheNamedKey : Prop := ∀ x : Reg,
  decode (wordXKK 0xE x 0x9E) = .ok (.skp x) ∧ decode (wordXKK 0xE x 0xA1) = .ok (.sknp x) ∧
  (∀ (s : State) (k : Reg), (s.readV x).toNat = k.val →
    exec (.skp x) s =
      .next (if s.keyDown k = true then { s with pc := BitVec.ofNat 16 ((s.pc.toNat + 2) % 4096) } else s) ∧
    exec (.sknp x) s =
      .next (if s.keyDown k = true then s else { s with pc := BitVec.ofNat 16 ((s.pc.toNat + 2) % 4096) })) ∧
  (∀ (s : State) (a : Addr), s.pc.toNat = (a.toNat + 2) % 4096 → 16 ≤ (s.readV x).toNat →
    exec (.skp x) s =
      .next { s with pc := BitVec.ofNat 16 a.toNat, fault := some ⟨.keyRange, a, wordXKK 0xE x 0x9E⟩ } ∧
    exec (.sknp x) s =
      .next { s with pc := BitVec.ofNat 16 a.toNat, fault := some ⟨.keyRange, a, wordXKK 0xE x 0xA1⟩ })

/-! ### Misc -/

/-- Fx07, Fx15 and Fx18 move a byte between Vx and a timer, and change nothing else (R280, R290, R295). -/
def Obligations.TimerInstructionsMoveTheByte : Prop := ∀ x : Reg,
  decode (wordXKK 0xF x 0x07) = .ok (.ldVxDt x) ∧ decode (wordXKK 0xF x 0x15) = .ok (.ldDtVx x) ∧
  decode (wordXKK 0xF x 0x18) = .ok (.ldStVx x) ∧
  ∀ s : State,
    (∃ t, exec (.ldVxDt x) s = .next t ∧ t.readV x = s.dt ∧ SameRegs [x] s t ∧ t = { s with v := t.v }) ∧
    exec (.ldDtVx x) s = .next { s with dt := s.readV x } ∧ exec (.ldStVx x) s = .next { s with st := s.readV x }

/-- Fx0A takes the key that KEYWAIT_SELECT selects among the keys that satisfy the wait (`Selects`: the key its list gives that
set, else the lowest-numbered, which is the default: the list form is the model's DESIGN CHOICE, log entry 2), or stays pending
with PC at itself and the key snapshot taken; the step that runs it returns OK or PENDING accordingly (R285, decisions D10 and
D11). -/
def Obligations.WaitForKeyTakesAKeyOrStaysPending : Prop := ∀ x : Reg, decode (wordXKK 0xF x 0x0A) = .ok (.ldVxK x) ∧
  (∀ s : State, (∃ k, Satisfies s k) → ∃ t k, exec (.ldVxK x) s = .next t ∧ Selects s k ∧
    (s.cfg.keywaitSelect = [] → ∀ j, Satisfies s j → k ≤ j) ∧ (t.readV x).toNat = k.val ∧ SameRegs [x] s t ∧
    t = { s with v := t.v, awaiting := false }) ∧
  (∀ (s : State) (a : Addr), s.pc.toNat = (a.toNat + 2) % 4096 → (¬∃ k, Satisfies s k) →
    exec (.ldVxK x) s =
      .next { s with kwPrev := s.key, awaiting := true, pc := BitVec.ofNat 16 a.toNat }) ∧
  (∀ s : State, s.fault = none → decode s.fetchWord = .ok (.ldVxK x) →
    ((∃ k, Satisfies s k) → stepStatus s = .ok) ∧ ((¬∃ k, Satisfies s k) → stepStatus s = .pending))

/-- ADD I, Vx: the sum modulo 4096, with no flag (R300). -/
def Obligations.AddIAddsModulo4096 : Prop := ∀ x : Reg, decode (wordXKK 0xF x 0x1E) = .ok (.addI x) ∧
  ∀ s : State, exec (.addI x) s = .next { s with i := BitVec.ofNat 16 ((s.i.toNat + (s.readV x).toNat) % 4096) }

/-- LD F, Vx: FONT_BASE plus five times the low nibble; with FONT_BASE in the domain of R8 the sum needs no reduction and is
below 0x200 (R305). -/
def Obligations.LdFPointsAtTheGlyph : Prop := ∀ x : Reg, decode (wordXKK 0xF x 0x29) = .ok (.ldF x) ∧
  ∀ s : State, ∃ t, exec (.ldF x) s = .next t ∧ t = { s with i := t.i } ∧
    t.i.toNat = (s.cfg.fontBase.toNat + 5 * ((s.readV x).toNat % 16)) % 4096 ∧
    (s.cfg.fontBase.toNat + 80 ≤ 0x200 →
      t.i.toNat = s.cfg.fontBase.toNat + 5 * ((s.readV x).toNat % 16) ∧ t.i.toNat < 0x200)

/-- LD B, Vx stores the three decimal digits at I, I + 1, I + 2 and touches no other byte, or raises FONT_WRITE before any
write (R310, R406). -/
def Obligations.LdBStoresTheDecimalDigits : Prop := ∀ x : Reg, decode (wordXKK 0xF x 0x33) = .ok (.ldB x) ∧
  (∀ s : State, Memory.wf s.cfg s.mem = true → ¬WritesFont s 3 → ∃ t, exec (.ldB x) s = .next t ∧
    (t.memRead (s.dataAddr 0)).toNat = (s.readV x).toNat / 100 ∧
    (t.memRead (s.dataAddr 1)).toNat = (s.readV x).toNat / 10 % 10 ∧
    (t.memRead (s.dataAddr 2)).toNat = (s.readV x).toNat % 10 ∧
    SameBytes [s.dataAddr 0, s.dataAddr 1, s.dataAddr 2] s t ∧ t = { s with mem := t.mem }) ∧
  (∀ (s : State) (a : Addr), s.pc.toNat = (a.toNat + 2) % 4096 → WritesFont s 3 →
    exec (.ldB x) s =
      .next { s with pc := BitVec.ofNat 16 a.toNat, fault := some ⟨.fontWrite, a, wordXKK 0xF x 0x33⟩ })

/-- LD [I], Vx stores V0 to Vx from I on, wrapping, and touches no other byte nor I, or raises FONT_WRITE before any write
(R315, R406). -/
def Obligations.LdMemVxStoresV0ToVx : Prop := ∀ x : Reg, decode (wordXKK 0xF x 0x55) = .ok (.ldMemVx x) ∧
  (∀ s : State, Memory.wf s.cfg s.mem = true → ¬WritesFont s (x.val + 1) → ∃ t, exec (.ldMemVx x) s = .next t ∧
    (∀ k : Reg, k ≤ x → t.memRead (s.dataAddr k.val) = s.readV k) ∧
    (∀ a, (∀ k : Reg, k ≤ x → a ≠ s.dataAddr k.val) → t.memRead a = s.memRead a) ∧ t = { s with mem := t.mem }) ∧
  (∀ (s : State) (a : Addr), s.pc.toNat = (a.toNat + 2) % 4096 → WritesFont s (x.val + 1) →
    exec (.ldMemVx x) s =
      .next { s with pc := BitVec.ofNat 16 a.toNat, fault := some ⟨.fontWrite, a, wordXKK 0xF x 0x55⟩ })

/-- LD Vx, [I] loads V0 to Vx from I on, wrapping, and changes neither I nor any other register (R320). -/
def Obligations.LdVxMemLoadsV0ToVx : Prop := ∀ x : Reg, decode (wordXKK 0xF x 0x65) = .ok (.ldVxMem x) ∧
  ∀ s : State, ∃ t, exec (.ldVxMem x) s = .next t ∧
    (∀ k : Reg, k ≤ x → t.readV k = s.memRead (BitVec.ofNat 12 (s.i.toNat + k.val))) ∧
    (∀ k : Reg, x < k → t.readV k = s.readV k) ∧ t = { s with v := t.v }

/-- Fx55 and then Fx65 with the same x and I restore V0 to Vx, as long as Fx55 completes and its bytes are not written in
between (R315, R320). -/
def Obligations.LoadAfterStoreRestoresTheRegisters : Prop := ∀ (x : Reg) (s t s' t' : State),
  Memory.wf s.cfg s.mem = true → ¬WritesFont s (x.val + 1) → exec (.ldMemVx x) s = .next t → s'.i = s.i →
  (∀ a ∈ writtenAddrs (.ldMemVx x) s, s'.memRead a = t.memRead a) → exec (.ldVxMem x) s' = .next t' →
  ∀ k : Reg, k ≤ x → t'.readV k = s.readV k

/-- Self-modifying code: a word that LD [I], Vx stores where the next step fetches is the word that step fetches (R79). -/
def Obligations.StoredWordIsFetchedByTheNextStep : Prop := ∀ (x j k : Reg) (s t : State),
  Memory.wf s.cfg s.mem = true → s.fault = none → decode s.fetchWord = .ok (.ldMemVx x) → step s = .next t →
  t.fault = none → k.val = j.val + 1 → k ≤ x → s.dataAddr j.val = toAddr t.pc →
  t.fetchWord.toNat = (s.readV j).toNat * 256 + (s.readV k).toNat

/-! ### The host -/

/-- A timer tick takes both timers down by one and leaves a timer at 0 there, and changes nothing else (R436). -/
def Obligations.TickCountsTimersDown : Prop := ∀ s : State,
  (tick s).dt.toNat = s.dt.toNat - 1 ∧ (tick s).st.toNat = s.st.toNat - 1 ∧
  tick s = { s with dt := (tick s).dt, st := (tick s).st }

/-- A key write sets the named key and no other, and changes nothing else (R432). -/
def Obligations.KeyWriteSetsTheNamedKey : Prop := ∀ (s : State) (k : Reg) (down : Bool),
  (setKey k down s).keyDown k = down ∧ (∀ j : Reg, j ≠ k → (setKey k down s).keyDown j = s.keyDown j) ∧
  setKey k down s = { s with key := (setKey k down s).key }

/-- A program load of at most 3584 bytes places them from 0x200 on and changes no other byte; a longer one is refused
(R63, R430). -/
def Obligations.LoadPlacesTheProgramAt0x200 : Prop := ∀ (s : State) (bs : List Byte), Memory.wf s.cfg s.mem = true →
  (bs.length ≤ 3584 → ∃ t, hostLoad bs s = .next t ∧
    (∀ (j : Nat) (h : j < bs.length), t.memRead (BitVec.ofNat 12 (0x200 + j)) = bs[j]) ∧
    (∀ a : Addr, a.toNat < 0x200 ∨ 0x200 + bs.length ≤ a.toNat → t.memRead a = s.memRead a) ∧
    t = { s with mem := t.mem }) ∧
  (3584 < bs.length → hostLoad bs s = .refused .loadTooLong)

/-- The host's moves keep the invariant: key write, tick and reset from every state that meets it, and a program load while no
Fx0A is pending and no fault is recorded, as before the first step (R52, R430; log entry 11). -/
def Obligations.HostMovesKeepTheInvariant : Prop := ∀ (m : HostMove) (s t : State), s.Inv → hostMove m s = .next t →
  (∀ bs, m = .load bs → s.awaiting = false ∧ s.fault = none) → t.Inv
end

