-- ==== Sys2Proof/Laws/Encoding.lean ====
section
/-! SUPPORT. The fields of an encoded word, and words as pairs of bytes. -/

namespace Sys2Proof

open Machine

@[simp] theorem toFin_regBits (x : Reg) : (regBits x).toFin = x := rfl

/-! ### The bits of a word put together -/

theorem getLsbD_encNNN (op : BitVec 4) (nnn : Addr) (i : Nat) :
    (encNNN op nnn).getLsbD i = if i < 12 then nnn.getLsbD i else op.getLsbD (i - 12) := BitVec.getLsbD_append

theorem getLsbD_encXKK (op : BitVec 4) (x : Reg) (kk : Byte) (i : Nat) : (encXKK op x kk).getLsbD i =
    if i < 8 then kk.getLsbD i else if i - 8 < 4 then (regBits x).getLsbD (i - 8) else op.getLsbD (i - 8 - 4) := by
  have h : (encXKK op x kk).getLsbD i = if i < 8 then kk.getLsbD i else (op ++ regBits x).getLsbD (i - 8) :=
    BitVec.getLsbD_append
  rw [h, BitVec.getLsbD_append]

theorem getLsbD_encXYN (op : BitVec 4) (x y : Reg) (n : BitVec 4) (i : Nat) : (encXYN op x y n).getLsbD i =
    if i < 4 then n.getLsbD i else if i - 4 < 4 then (regBits y).getLsbD (i - 4)
    else if i - 4 - 4 < 4 then (regBits x).getLsbD (i - 4 - 4) else op.getLsbD (i - 4 - 4 - 4) := by
  have h : (encXYN op x y n).getLsbD i = if i < 4 then n.getLsbD i else (op ++ regBits x ++ regBits y).getLsbD (i - 4) :=
    BitVec.getLsbD_append
  rw [h, BitVec.getLsbD_append, BitVec.getLsbD_append]

/-! ### The fields of an encoded word -/

@[simp] theorem opField_encNNN (op : BitVec 4) (nnn : Addr) : opField (encNNN op nnn) = op := by
  apply BitVec.eq_of_getLsbD_eq
  intro i hi
  simp [opField, getLsbD_encNNN, hi]

@[simp] theorem nnnField_encNNN (op : BitVec 4) (nnn : Addr) : nnnField (encNNN op nnn) = nnn := by
  apply BitVec.eq_of_getLsbD_eq
  intro i hi
  simp [nnnField, getLsbD_encNNN, hi]

@[simp] theorem opField_encXKK (op : BitVec 4) (x : Reg) (kk : Byte) : opField (encXKK op x kk) = op := by
  apply BitVec.eq_of_getLsbD_eq
  intro i hi
  simp only [opField, BitVec.getLsbD_extractLsb', getLsbD_encXKK, hi, decide_true, Bool.true_and]
  rw [if_neg (by omega), if_neg (by omega)]
  congr 1; omega

@[simp] theorem xField_encXKK (op : BitVec 4) (x : Reg) (kk : Byte) : xField (encXKK op x kk) = x := by
  have h : (encXKK op x kk).extractLsb' 8 4 = regBits x := by
    apply BitVec.eq_of_getLsbD_eq
    intro i hi
    simp only [BitVec.getLsbD_extractLsb', getLsbD_encXKK, hi, decide_true, Bool.true_and]
    rw [if_neg (by omega), if_pos (by omega)]
    congr 1; omega
  rw [xField, h, toFin_regBits]

@[simp] theorem kkField_encXKK (op : BitVec 4) (x : Reg) (kk : Byte) : kkField (encXKK op x kk) = kk := by
  apply BitVec.eq_of_getLsbD_eq
  intro i hi
  simp [kkField, getLsbD_encXKK, hi]

@[simp] theorem opField_encXYN (op : BitVec 4) (x y : Reg) (n : BitVec 4) : opField (encXYN op x y n) = op := by
  apply BitVec.eq_of_getLsbD_eq
  intro i hi
  simp only [opField, BitVec.getLsbD_extractLsb', getLsbD_encXYN, hi, decide_true, Bool.true_and]
  rw [if_neg (by omega), if_neg (by omega), if_neg (by omega)]
  congr 1; omega

@[simp] theorem xField_encXYN (op : BitVec 4) (x y : Reg) (n : BitVec 4) : xField (encXYN op x y n) = x := by
  have h : (encXYN op x y n).extractLsb' 8 4 = regBits x := by
    apply BitVec.eq_of_getLsbD_eq
    intro i hi
    simp only [BitVec.getLsbD_extractLsb', getLsbD_encXYN, hi, decide_true, Bool.true_and]
    rw [if_neg (by omega), if_neg (by omega), if_pos (by omega)]
    congr 1; omega
  rw [xField, h, toFin_regBits]

@[simp] theorem yField_encXYN (op : BitVec 4) (x y : Reg) (n : BitVec 4) : yField (encXYN op x y n) = y := by
  have h : (encXYN op x y n).extractLsb' 4 4 = regBits y := by
    apply BitVec.eq_of_getLsbD_eq
    intro i hi
    simp only [BitVec.getLsbD_extractLsb', getLsbD_encXYN, hi, decide_true, Bool.true_and]
    rw [if_neg (by omega), if_pos (by omega)]
    congr 1; omega
  rw [yField, h, toFin_regBits]

@[simp] theorem nField_encXYN (op : BitVec 4) (x y : Reg) (n : BitVec 4) : nField (encXYN op x y n) = n := by
  apply BitVec.eq_of_getLsbD_eq
  intro i hi
  simp [nField, getLsbD_encXYN, hi]

/-! ### A word from its fields -/

/-- A word is its format-NNN fields put together. -/
theorem encNNN_fields (w : Word) : encNNN (opField w) (nnnField w) = w := by
  apply BitVec.eq_of_getLsbD_eq
  intro i hi
  simp only [getLsbD_encNNN, opField, nnnField, BitVec.getLsbD_extractLsb']
  split
  · simp [*]
  · rw [decide_eq_true (by omega), Bool.true_and]; congr 1; omega

/-- A word is its format-XKK fields put together. -/
theorem encXKK_fields (w : Word) : encXKK (opField w) (xField w) (kkField w) = w := by
  have h : regBits (xField w) = w.extractLsb' 8 4 := rfl
  apply BitVec.eq_of_getLsbD_eq
  intro i hi
  simp only [getLsbD_encXKK, h, opField, kkField, BitVec.getLsbD_extractLsb']
  split
  · simp [*]
  · split <;> rw [decide_eq_true (by omega), Bool.true_and] <;> congr 1 <;> omega

/-- A word is its format-XYN fields put together. -/
theorem encXYN_fields (w : Word) : encXYN (opField w) (xField w) (yField w) (nField w) = w := by
  have h : regBits (xField w) = w.extractLsb' 8 4 := rfl
  have h' : regBits (yField w) = w.extractLsb' 4 4 := rfl
  apply BitVec.eq_of_getLsbD_eq
  intro i hi
  simp only [getLsbD_encXYN, h, h', opField, nField, BitVec.getLsbD_extractLsb']
  split
  · simp [*]
  · split
    · rw [decide_eq_true (by omega), Bool.true_and]; congr 1; omega
    · split <;> rw [decide_eq_true (by omega), Bool.true_and] <;> congr 1 <;> omega

/-! ### Fields and words by number -/

/-- `op` by number (R93). -/
theorem toNat_opField (w : Word) : (opField w).toNat = w.toNat / 0x1000 := by
  have := w.isLt
  simp [opField, Nat.shiftRight_eq_div_pow]
  omega

/-- `n` by number (R92). -/
theorem toNat_nField (w : Word) : (nField w).toNat = w.toNat % 0x10 := by simp [nField]

/-- `kk` by number (R92). -/
theorem toNat_kkField (w : Word) : (kkField w).toNat = w.toNat % 0x100 := by simp [kkField]

/-- The word of format NNN, put together by number. -/
theorem wordNNN_eq (op : BitVec 4) (nnn : Addr) : wordNNN op.toNat nnn = encNNN op nnn := by
  apply BitVec.eq_of_toNat_eq
  have h : (encNNN op nnn).toNat = op.toNat <<< 12 ||| nnn.toNat := BitVec.toNat_append ..
  rw [h, ← Nat.shiftLeft_add_eq_or_of_lt nnn.isLt, wordNNN, BitVec.toNat_ofNat, Nat.shiftLeft_eq]
  have := op.isLt
  have := nnn.isLt
  omega

/-- The word of format XKK, put together by number. -/
theorem wordXKK_eq (op : BitVec 4) (x : Reg) (kk : Byte) : wordXKK op.toNat x kk = encXKK op x kk := by
  apply BitVec.eq_of_toNat_eq
  have h : (encXKK op x kk).toNat = (op ++ regBits x).toNat <<< 8 ||| kk.toNat := BitVec.toNat_append ..
  have h2 : (op ++ regBits x).toNat = op.toNat <<< 4 ||| x.val := BitVec.toNat_append ..
  rw [h, ← Nat.shiftLeft_add_eq_or_of_lt kk.isLt, h2,
    ← Nat.shiftLeft_add_eq_or_of_lt (show x.val < 2 ^ 4 from x.isLt), wordXKK, BitVec.toNat_ofNat, Nat.shiftLeft_eq,
    Nat.shiftLeft_eq]
  have := op.isLt
  have := kk.isLt
  have := x.isLt
  omega

/-- The word of format XYN, put together by number. -/
theorem wordXYN_eq (op : BitVec 4) (x y : Reg) (n : BitVec 4) : wordXYN op.toNat x y n = encXYN op x y n := by
  apply BitVec.eq_of_toNat_eq
  have h : (encXYN op x y n).toNat = (op ++ regBits x ++ regBits y).toNat <<< 4 ||| n.toNat := BitVec.toNat_append ..
  have h2 : (op ++ regBits x ++ regBits y).toNat = (op ++ regBits x).toNat <<< 4 ||| y.val := BitVec.toNat_append ..
  have h3 : (op ++ regBits x).toNat = op.toNat <<< 4 ||| x.val := BitVec.toNat_append ..
  rw [h, ← Nat.shiftLeft_add_eq_or_of_lt n.isLt, h2,
    ← Nat.shiftLeft_add_eq_or_of_lt (show y.val < 2 ^ 4 from y.isLt), h3,
    ← Nat.shiftLeft_add_eq_or_of_lt (show x.val < 2 ^ 4 from x.isLt), wordXYN, BitVec.toNat_ofNat]
  simp only [Nat.shiftLeft_eq]
  have := op.isLt
  have := n.isLt
  have := x.isLt
  have := y.isLt
  omega

/-- Clearing the y field of a format-XYN word. -/
theorem encXYN_clear_y (x y : Reg) (op n : BitVec 4) : encXYN op x y n &&& 0xFF0F = encXYN op x 0 n := by
  apply BitVec.eq_of_getLsbD_eq
  intro i hi
  simp only [BitVec.getLsbD_and, getLsbD_encXYN, regBits]
  interval_cases i <;> simp

/-! ### Bytes -/

/-- The word fetched from the two stored bytes of a word is that word (R66). -/
theorem wordOfBytes_bytesOfWord (w : Word) : wordOfBytes (w.extractLsb' 8 8) (w.extractLsb' 0 8) = w := by
  apply BitVec.eq_of_getLsbD_eq
  intro i hi
  have h : (wordOfBytes (w.extractLsb' 8 8) (w.extractLsb' 0 8)).getLsbD i =
      if i < 8 then (w.extractLsb' 0 8).getLsbD i else (w.extractLsb' 8 8).getLsbD (i - 8) := BitVec.getLsbD_append
  rw [h]
  simp only [BitVec.getLsbD_extractLsb']
  split
  · simp [*]
  · rw [decide_eq_true (by omega), Bool.true_and]; congr 1; omega

/-- A table word decodes as the word it is (R95). -/
theorem decodeTableWord_eq (nbits w : Nat) :
    decodeTableWord nbits w = (decode (BitVec.ofNat 16 (w % 2 ^ nbits))).toOption := by
  unfold decodeTableWord
  simp only [bytesOfWord, decodeBytes, wordOfBytes_bytesOfWord]
  cases decode (BitVec.ofNat 16 (w % 2 ^ nbits)) <;> rfl

end Sys2Proof
end

