-- ==== Sys2Proof/Laws/State.lean ====
section
/-! SUPPORT. One lemma per field per update of the state, each true by computation, so that no proof unfolds an update. -/

namespace Sys2Proof.Machine

/-! ### memWrite -/

@[simp] theorem State.memWrite_cfg (s : State) (a : Addr) (x : Byte) : (s.memWrite a x).cfg = s.cfg := rfl
@[simp] theorem State.memWrite_mem (s : State) (a : Addr) (x : Byte) : (s.memWrite a x).mem = memSet (resetByte s.cfg) a.toNat x s.mem := rfl
@[simp] theorem State.memWrite_v (s : State) (a : Addr) (x : Byte) : (s.memWrite a x).v = s.v := rfl
@[simp] theorem State.memWrite_i (s : State) (a : Addr) (x : Byte) : (s.memWrite a x).i = s.i := rfl
@[simp] theorem State.memWrite_pc (s : State) (a : Addr) (x : Byte) : (s.memWrite a x).pc = s.pc := rfl
@[simp] theorem State.memWrite_stack (s : State) (a : Addr) (x : Byte) : (s.memWrite a x).stack = s.stack := rfl
@[simp] theorem State.memWrite_sp (s : State) (a : Addr) (x : Byte) : (s.memWrite a x).sp = s.sp := rfl
@[simp] theorem State.memWrite_dt (s : State) (a : Addr) (x : Byte) : (s.memWrite a x).dt = s.dt := rfl
@[simp] theorem State.memWrite_st (s : State) (a : Addr) (x : Byte) : (s.memWrite a x).st = s.st := rfl
@[simp] theorem State.memWrite_fb (s : State) (a : Addr) (x : Byte) : (s.memWrite a x).fb = s.fb := rfl
@[simp] theorem State.memWrite_key (s : State) (a : Addr) (x : Byte) : (s.memWrite a x).key = s.key := rfl
@[simp] theorem State.memWrite_awaiting (s : State) (a : Addr) (x : Byte) : (s.memWrite a x).awaiting = s.awaiting := rfl
@[simp] theorem State.memWrite_kwPrev (s : State) (a : Addr) (x : Byte) : (s.memWrite a x).kwPrev = s.kwPrev := rfl
@[simp] theorem State.memWrite_fault (s : State) (a : Addr) (x : Byte) : (s.memWrite a x).fault = s.fault := rfl
@[simp] theorem State.memWrite_draws (s : State) (a : Addr) (x : Byte) : (s.memWrite a x).draws = s.draws := rfl
@[simp] theorem State.memWrite_readV (s : State) (a : Addr) (x : Byte) (r : Reg) : (s.memWrite a x).readV r = s.readV r := rfl
@[simp] theorem State.memWrite_dataAddr (s : State) (a : Addr) (x : Byte) (j : Nat) : (s.memWrite a x).dataAddr j = s.dataAddr j := rfl

/-! ### writeV -/

@[simp] theorem State.writeV_cfg (s : State) (x : Reg) (b : Byte) : (s.writeV x b).cfg = s.cfg := rfl
@[simp] theorem State.writeV_mem (s : State) (x : Reg) (b : Byte) : (s.writeV x b).mem = s.mem := rfl
@[simp] theorem State.writeV_v (s : State) (x : Reg) (b : Byte) : (s.writeV x b).v = s.v.set x b := rfl
@[simp] theorem State.writeV_i (s : State) (x : Reg) (b : Byte) : (s.writeV x b).i = s.i := rfl
@[simp] theorem State.writeV_pc (s : State) (x : Reg) (b : Byte) : (s.writeV x b).pc = s.pc := rfl
@[simp] theorem State.writeV_stack (s : State) (x : Reg) (b : Byte) : (s.writeV x b).stack = s.stack := rfl
@[simp] theorem State.writeV_sp (s : State) (x : Reg) (b : Byte) : (s.writeV x b).sp = s.sp := rfl
@[simp] theorem State.writeV_dt (s : State) (x : Reg) (b : Byte) : (s.writeV x b).dt = s.dt := rfl
@[simp] theorem State.writeV_st (s : State) (x : Reg) (b : Byte) : (s.writeV x b).st = s.st := rfl
@[simp] theorem State.writeV_fb (s : State) (x : Reg) (b : Byte) : (s.writeV x b).fb = s.fb := rfl
@[simp] theorem State.writeV_key (s : State) (x : Reg) (b : Byte) : (s.writeV x b).key = s.key := rfl
@[simp] theorem State.writeV_awaiting (s : State) (x : Reg) (b : Byte) : (s.writeV x b).awaiting = s.awaiting := rfl
@[simp] theorem State.writeV_kwPrev (s : State) (x : Reg) (b : Byte) : (s.writeV x b).kwPrev = s.kwPrev := rfl
@[simp] theorem State.writeV_fault (s : State) (x : Reg) (b : Byte) : (s.writeV x b).fault = s.fault := rfl
@[simp] theorem State.writeV_draws (s : State) (x : Reg) (b : Byte) : (s.writeV x b).draws = s.draws := rfl
@[simp] theorem State.writeV_memRead (s : State) (x : Reg) (b : Byte) (a' : Addr) : (s.writeV x b).memRead a' = s.memRead a' := rfl
@[simp] theorem State.writeV_dataAddr (s : State) (x : Reg) (b : Byte) (j : Nat) : (s.writeV x b).dataAddr j = s.dataAddr j := rfl

/-! ### writeFlagged -/

@[simp] theorem State.writeFlagged_cfg (s : State) (x : Reg) (b : Byte) (f : Bool) : (s.writeFlagged x b f).cfg = s.cfg := rfl
@[simp] theorem State.writeFlagged_mem (s : State) (x : Reg) (b : Byte) (f : Bool) : (s.writeFlagged x b f).mem = s.mem := rfl
@[simp] theorem State.writeFlagged_v (s : State) (x : Reg) (b : Byte) (f : Bool) : (s.writeFlagged x b f).v = (s.v.set x b).set vF (flagByte f) := rfl
@[simp] theorem State.writeFlagged_i (s : State) (x : Reg) (b : Byte) (f : Bool) : (s.writeFlagged x b f).i = s.i := rfl
@[simp] theorem State.writeFlagged_pc (s : State) (x : Reg) (b : Byte) (f : Bool) : (s.writeFlagged x b f).pc = s.pc := rfl
@[simp] theorem State.writeFlagged_stack (s : State) (x : Reg) (b : Byte) (f : Bool) : (s.writeFlagged x b f).stack = s.stack := rfl
@[simp] theorem State.writeFlagged_sp (s : State) (x : Reg) (b : Byte) (f : Bool) : (s.writeFlagged x b f).sp = s.sp := rfl
@[simp] theorem State.writeFlagged_dt (s : State) (x : Reg) (b : Byte) (f : Bool) : (s.writeFlagged x b f).dt = s.dt := rfl
@[simp] theorem State.writeFlagged_st (s : State) (x : Reg) (b : Byte) (f : Bool) : (s.writeFlagged x b f).st = s.st := rfl
@[simp] theorem State.writeFlagged_fb (s : State) (x : Reg) (b : Byte) (f : Bool) : (s.writeFlagged x b f).fb = s.fb := rfl
@[simp] theorem State.writeFlagged_key (s : State) (x : Reg) (b : Byte) (f : Bool) : (s.writeFlagged x b f).key = s.key := rfl
@[simp] theorem State.writeFlagged_awaiting (s : State) (x : Reg) (b : Byte) (f : Bool) : (s.writeFlagged x b f).awaiting = s.awaiting := rfl
@[simp] theorem State.writeFlagged_kwPrev (s : State) (x : Reg) (b : Byte) (f : Bool) : (s.writeFlagged x b f).kwPrev = s.kwPrev := rfl
@[simp] theorem State.writeFlagged_fault (s : State) (x : Reg) (b : Byte) (f : Bool) : (s.writeFlagged x b f).fault = s.fault := rfl
@[simp] theorem State.writeFlagged_draws (s : State) (x : Reg) (b : Byte) (f : Bool) : (s.writeFlagged x b f).draws = s.draws := rfl
@[simp] theorem State.writeFlagged_memRead (s : State) (x : Reg) (b : Byte) (f : Bool) (a' : Addr) : (s.writeFlagged x b f).memRead a' = s.memRead a' := rfl
@[simp] theorem State.writeFlagged_dataAddr (s : State) (x : Reg) (b : Byte) (f : Bool) (j : Nat) : (s.writeFlagged x b f).dataAddr j = s.dataAddr j := rfl

/-! ### setI -/

@[simp] theorem State.setI_cfg (s : State) (a : Addr) : (s.setI a).cfg = s.cfg := rfl
@[simp] theorem State.setI_mem (s : State) (a : Addr) : (s.setI a).mem = s.mem := rfl
@[simp] theorem State.setI_v (s : State) (a : Addr) : (s.setI a).v = s.v := rfl
@[simp] theorem State.setI_i (s : State) (a : Addr) : (s.setI a).i = ofAddr a := rfl
@[simp] theorem State.setI_pc (s : State) (a : Addr) : (s.setI a).pc = s.pc := rfl
@[simp] theorem State.setI_stack (s : State) (a : Addr) : (s.setI a).stack = s.stack := rfl
@[simp] theorem State.setI_sp (s : State) (a : Addr) : (s.setI a).sp = s.sp := rfl
@[simp] theorem State.setI_dt (s : State) (a : Addr) : (s.setI a).dt = s.dt := rfl
@[simp] theorem State.setI_st (s : State) (a : Addr) : (s.setI a).st = s.st := rfl
@[simp] theorem State.setI_fb (s : State) (a : Addr) : (s.setI a).fb = s.fb := rfl
@[simp] theorem State.setI_key (s : State) (a : Addr) : (s.setI a).key = s.key := rfl
@[simp] theorem State.setI_awaiting (s : State) (a : Addr) : (s.setI a).awaiting = s.awaiting := rfl
@[simp] theorem State.setI_kwPrev (s : State) (a : Addr) : (s.setI a).kwPrev = s.kwPrev := rfl
@[simp] theorem State.setI_fault (s : State) (a : Addr) : (s.setI a).fault = s.fault := rfl
@[simp] theorem State.setI_draws (s : State) (a : Addr) : (s.setI a).draws = s.draws := rfl
@[simp] theorem State.setI_readV (s : State) (a : Addr) (r : Reg) : (s.setI a).readV r = s.readV r := rfl
@[simp] theorem State.setI_memRead (s : State) (a : Addr) (a' : Addr) : (s.setI a).memRead a' = s.memRead a' := rfl

/-! ### setDt -/

@[simp] theorem State.setDt_cfg (s : State) (b : Byte) : (s.setDt b).cfg = s.cfg := rfl
@[simp] theorem State.setDt_mem (s : State) (b : Byte) : (s.setDt b).mem = s.mem := rfl
@[simp] theorem State.setDt_v (s : State) (b : Byte) : (s.setDt b).v = s.v := rfl
@[simp] theorem State.setDt_i (s : State) (b : Byte) : (s.setDt b).i = s.i := rfl
@[simp] theorem State.setDt_pc (s : State) (b : Byte) : (s.setDt b).pc = s.pc := rfl
@[simp] theorem State.setDt_stack (s : State) (b : Byte) : (s.setDt b).stack = s.stack := rfl
@[simp] theorem State.setDt_sp (s : State) (b : Byte) : (s.setDt b).sp = s.sp := rfl
@[simp] theorem State.setDt_dt (s : State) (b : Byte) : (s.setDt b).dt = b := rfl
@[simp] theorem State.setDt_st (s : State) (b : Byte) : (s.setDt b).st = s.st := rfl
@[simp] theorem State.setDt_fb (s : State) (b : Byte) : (s.setDt b).fb = s.fb := rfl
@[simp] theorem State.setDt_key (s : State) (b : Byte) : (s.setDt b).key = s.key := rfl
@[simp] theorem State.setDt_awaiting (s : State) (b : Byte) : (s.setDt b).awaiting = s.awaiting := rfl
@[simp] theorem State.setDt_kwPrev (s : State) (b : Byte) : (s.setDt b).kwPrev = s.kwPrev := rfl
@[simp] theorem State.setDt_fault (s : State) (b : Byte) : (s.setDt b).fault = s.fault := rfl
@[simp] theorem State.setDt_draws (s : State) (b : Byte) : (s.setDt b).draws = s.draws := rfl
@[simp] theorem State.setDt_readV (s : State) (b : Byte) (r : Reg) : (s.setDt b).readV r = s.readV r := rfl
@[simp] theorem State.setDt_memRead (s : State) (b : Byte) (a' : Addr) : (s.setDt b).memRead a' = s.memRead a' := rfl
@[simp] theorem State.setDt_dataAddr (s : State) (b : Byte) (j : Nat) : (s.setDt b).dataAddr j = s.dataAddr j := rfl

/-! ### setSt -/

@[simp] theorem State.setSt_cfg (s : State) (b : Byte) : (s.setSt b).cfg = s.cfg := rfl
@[simp] theorem State.setSt_mem (s : State) (b : Byte) : (s.setSt b).mem = s.mem := rfl
@[simp] theorem State.setSt_v (s : State) (b : Byte) : (s.setSt b).v = s.v := rfl
@[simp] theorem State.setSt_i (s : State) (b : Byte) : (s.setSt b).i = s.i := rfl
@[simp] theorem State.setSt_pc (s : State) (b : Byte) : (s.setSt b).pc = s.pc := rfl
@[simp] theorem State.setSt_stack (s : State) (b : Byte) : (s.setSt b).stack = s.stack := rfl
@[simp] theorem State.setSt_sp (s : State) (b : Byte) : (s.setSt b).sp = s.sp := rfl
@[simp] theorem State.setSt_dt (s : State) (b : Byte) : (s.setSt b).dt = s.dt := rfl
@[simp] theorem State.setSt_st (s : State) (b : Byte) : (s.setSt b).st = b := rfl
@[simp] theorem State.setSt_fb (s : State) (b : Byte) : (s.setSt b).fb = s.fb := rfl
@[simp] theorem State.setSt_key (s : State) (b : Byte) : (s.setSt b).key = s.key := rfl
@[simp] theorem State.setSt_awaiting (s : State) (b : Byte) : (s.setSt b).awaiting = s.awaiting := rfl
@[simp] theorem State.setSt_kwPrev (s : State) (b : Byte) : (s.setSt b).kwPrev = s.kwPrev := rfl
@[simp] theorem State.setSt_fault (s : State) (b : Byte) : (s.setSt b).fault = s.fault := rfl
@[simp] theorem State.setSt_draws (s : State) (b : Byte) : (s.setSt b).draws = s.draws := rfl
@[simp] theorem State.setSt_readV (s : State) (b : Byte) (r : Reg) : (s.setSt b).readV r = s.readV r := rfl
@[simp] theorem State.setSt_memRead (s : State) (b : Byte) (a' : Addr) : (s.setSt b).memRead a' = s.memRead a' := rfl
@[simp] theorem State.setSt_dataAddr (s : State) (b : Byte) (j : Nat) : (s.setSt b).dataAddr j = s.dataAddr j := rfl

/-! ### setPc -/

@[simp] theorem State.setPc_cfg (s : State) (a : Addr) : (s.setPc a).cfg = s.cfg := rfl
@[simp] theorem State.setPc_mem (s : State) (a : Addr) : (s.setPc a).mem = s.mem := rfl
@[simp] theorem State.setPc_v (s : State) (a : Addr) : (s.setPc a).v = s.v := rfl
@[simp] theorem State.setPc_i (s : State) (a : Addr) : (s.setPc a).i = s.i := rfl
@[simp] theorem State.setPc_pc (s : State) (a : Addr) : (s.setPc a).pc = ofAddr a := rfl
@[simp] theorem State.setPc_stack (s : State) (a : Addr) : (s.setPc a).stack = s.stack := rfl
@[simp] theorem State.setPc_sp (s : State) (a : Addr) : (s.setPc a).sp = s.sp := rfl
@[simp] theorem State.setPc_dt (s : State) (a : Addr) : (s.setPc a).dt = s.dt := rfl
@[simp] theorem State.setPc_st (s : State) (a : Addr) : (s.setPc a).st = s.st := rfl
@[simp] theorem State.setPc_fb (s : State) (a : Addr) : (s.setPc a).fb = s.fb := rfl
@[simp] theorem State.setPc_key (s : State) (a : Addr) : (s.setPc a).key = s.key := rfl
@[simp] theorem State.setPc_awaiting (s : State) (a : Addr) : (s.setPc a).awaiting = s.awaiting := rfl
@[simp] theorem State.setPc_kwPrev (s : State) (a : Addr) : (s.setPc a).kwPrev = s.kwPrev := rfl
@[simp] theorem State.setPc_fault (s : State) (a : Addr) : (s.setPc a).fault = s.fault := rfl
@[simp] theorem State.setPc_draws (s : State) (a : Addr) : (s.setPc a).draws = s.draws := rfl
@[simp] theorem State.setPc_readV (s : State) (a : Addr) (r : Reg) : (s.setPc a).readV r = s.readV r := rfl
@[simp] theorem State.setPc_memRead (s : State) (a : Addr) (a' : Addr) : (s.setPc a).memRead a' = s.memRead a' := rfl
@[simp] theorem State.setPc_dataAddr (s : State) (a : Addr) (j : Nat) : (s.setPc a).dataAddr j = s.dataAddr j := rfl

/-! ### advance -/

@[simp] theorem State.advance_cfg (s : State) : (s.advance).cfg = s.cfg := rfl
@[simp] theorem State.advance_mem (s : State) : (s.advance).mem = s.mem := rfl
@[simp] theorem State.advance_v (s : State) : (s.advance).v = s.v := rfl
@[simp] theorem State.advance_i (s : State) : (s.advance).i = s.i := rfl
@[simp] theorem State.advance_pc (s : State) : (s.advance).pc = ofAddr (toAddr s.pc + 2) := rfl
@[simp] theorem State.advance_stack (s : State) : (s.advance).stack = s.stack := rfl
@[simp] theorem State.advance_sp (s : State) : (s.advance).sp = s.sp := rfl
@[simp] theorem State.advance_dt (s : State) : (s.advance).dt = s.dt := rfl
@[simp] theorem State.advance_st (s : State) : (s.advance).st = s.st := rfl
@[simp] theorem State.advance_fb (s : State) : (s.advance).fb = s.fb := rfl
@[simp] theorem State.advance_key (s : State) : (s.advance).key = s.key := rfl
@[simp] theorem State.advance_awaiting (s : State) : (s.advance).awaiting = s.awaiting := rfl
@[simp] theorem State.advance_kwPrev (s : State) : (s.advance).kwPrev = s.kwPrev := rfl
@[simp] theorem State.advance_fault (s : State) : (s.advance).fault = s.fault := rfl
@[simp] theorem State.advance_draws (s : State) : (s.advance).draws = s.draws := rfl
@[simp] theorem State.advance_readV (s : State) (r : Reg) : (s.advance).readV r = s.readV r := rfl
@[simp] theorem State.advance_memRead (s : State) (a' : Addr) : (s.advance).memRead a' = s.memRead a' := rfl
@[simp] theorem State.advance_dataAddr (s : State) (j : Nat) : (s.advance).dataAddr j = s.dataAddr j := rfl

/-! ### setFb -/

@[simp] theorem State.setFb_cfg (s : State) (f : Framebuffer) : (s.setFb f).cfg = s.cfg := rfl
@[simp] theorem State.setFb_mem (s : State) (f : Framebuffer) : (s.setFb f).mem = s.mem := rfl
@[simp] theorem State.setFb_v (s : State) (f : Framebuffer) : (s.setFb f).v = s.v := rfl
@[simp] theorem State.setFb_i (s : State) (f : Framebuffer) : (s.setFb f).i = s.i := rfl
@[simp] theorem State.setFb_pc (s : State) (f : Framebuffer) : (s.setFb f).pc = s.pc := rfl
@[simp] theorem State.setFb_stack (s : State) (f : Framebuffer) : (s.setFb f).stack = s.stack := rfl
@[simp] theorem State.setFb_sp (s : State) (f : Framebuffer) : (s.setFb f).sp = s.sp := rfl
@[simp] theorem State.setFb_dt (s : State) (f : Framebuffer) : (s.setFb f).dt = s.dt := rfl
@[simp] theorem State.setFb_st (s : State) (f : Framebuffer) : (s.setFb f).st = s.st := rfl
@[simp] theorem State.setFb_fb (s : State) (f : Framebuffer) : (s.setFb f).fb = f := rfl
@[simp] theorem State.setFb_key (s : State) (f : Framebuffer) : (s.setFb f).key = s.key := rfl
@[simp] theorem State.setFb_awaiting (s : State) (f : Framebuffer) : (s.setFb f).awaiting = s.awaiting := rfl
@[simp] theorem State.setFb_kwPrev (s : State) (f : Framebuffer) : (s.setFb f).kwPrev = s.kwPrev := rfl
@[simp] theorem State.setFb_fault (s : State) (f : Framebuffer) : (s.setFb f).fault = s.fault := rfl
@[simp] theorem State.setFb_draws (s : State) (f : Framebuffer) : (s.setFb f).draws = s.draws := rfl
@[simp] theorem State.setFb_readV (s : State) (f : Framebuffer) (r : Reg) : (s.setFb f).readV r = s.readV r := rfl
@[simp] theorem State.setFb_memRead (s : State) (f : Framebuffer) (a' : Addr) : (s.setFb f).memRead a' = s.memRead a' := rfl
@[simp] theorem State.setFb_dataAddr (s : State) (f : Framebuffer) (j : Nat) : (s.setFb f).dataAddr j = s.dataAddr j := rfl

/-! ### endWait -/

@[simp] theorem State.endWait_cfg (s : State) : (s.endWait).cfg = s.cfg := rfl
@[simp] theorem State.endWait_mem (s : State) : (s.endWait).mem = s.mem := rfl
@[simp] theorem State.endWait_v (s : State) : (s.endWait).v = s.v := rfl
@[simp] theorem State.endWait_i (s : State) : (s.endWait).i = s.i := rfl
@[simp] theorem State.endWait_pc (s : State) : (s.endWait).pc = s.pc := rfl
@[simp] theorem State.endWait_stack (s : State) : (s.endWait).stack = s.stack := rfl
@[simp] theorem State.endWait_sp (s : State) : (s.endWait).sp = s.sp := rfl
@[simp] theorem State.endWait_dt (s : State) : (s.endWait).dt = s.dt := rfl
@[simp] theorem State.endWait_st (s : State) : (s.endWait).st = s.st := rfl
@[simp] theorem State.endWait_fb (s : State) : (s.endWait).fb = s.fb := rfl
@[simp] theorem State.endWait_key (s : State) : (s.endWait).key = s.key := rfl
@[simp] theorem State.endWait_awaiting (s : State) : (s.endWait).awaiting = false := rfl
@[simp] theorem State.endWait_kwPrev (s : State) : (s.endWait).kwPrev = s.kwPrev := rfl
@[simp] theorem State.endWait_fault (s : State) : (s.endWait).fault = s.fault := rfl
@[simp] theorem State.endWait_draws (s : State) : (s.endWait).draws = s.draws := rfl
@[simp] theorem State.endWait_readV (s : State) (r : Reg) : (s.endWait).readV r = s.readV r := rfl
@[simp] theorem State.endWait_memRead (s : State) (a' : Addr) : (s.endWait).memRead a' = s.memRead a' := rfl
@[simp] theorem State.endWait_dataAddr (s : State) (j : Nat) : (s.endWait).dataAddr j = s.dataAddr j := rfl

/-! ### keepWaiting -/

@[simp] theorem State.keepWaiting_cfg (s : State) : (s.keepWaiting).cfg = s.cfg := rfl
@[simp] theorem State.keepWaiting_mem (s : State) : (s.keepWaiting).mem = s.mem := rfl
@[simp] theorem State.keepWaiting_v (s : State) : (s.keepWaiting).v = s.v := rfl
@[simp] theorem State.keepWaiting_i (s : State) : (s.keepWaiting).i = s.i := rfl
@[simp] theorem State.keepWaiting_pc (s : State) : (s.keepWaiting).pc = ofAddr s.instrAddr := rfl
@[simp] theorem State.keepWaiting_stack (s : State) : (s.keepWaiting).stack = s.stack := rfl
@[simp] theorem State.keepWaiting_sp (s : State) : (s.keepWaiting).sp = s.sp := rfl
@[simp] theorem State.keepWaiting_dt (s : State) : (s.keepWaiting).dt = s.dt := rfl
@[simp] theorem State.keepWaiting_st (s : State) : (s.keepWaiting).st = s.st := rfl
@[simp] theorem State.keepWaiting_fb (s : State) : (s.keepWaiting).fb = s.fb := rfl
@[simp] theorem State.keepWaiting_key (s : State) : (s.keepWaiting).key = s.key := rfl
@[simp] theorem State.keepWaiting_awaiting (s : State) : (s.keepWaiting).awaiting = true := rfl
@[simp] theorem State.keepWaiting_kwPrev (s : State) : (s.keepWaiting).kwPrev = s.key := rfl
@[simp] theorem State.keepWaiting_fault (s : State) : (s.keepWaiting).fault = s.fault := rfl
@[simp] theorem State.keepWaiting_draws (s : State) : (s.keepWaiting).draws = s.draws := rfl
@[simp] theorem State.keepWaiting_readV (s : State) (r : Reg) : (s.keepWaiting).readV r = s.readV r := rfl
@[simp] theorem State.keepWaiting_memRead (s : State) (a' : Addr) : (s.keepWaiting).memRead a' = s.memRead a' := rfl
@[simp] theorem State.keepWaiting_dataAddr (s : State) (j : Nat) : (s.keepWaiting).dataAddr j = s.dataAddr j := rfl

/-! ### enterFault -/

@[simp] theorem State.enterFault_cfg (s : State) (c : FaultCode) (w : Word) : (s.enterFault c w).cfg = s.cfg := rfl
@[simp] theorem State.enterFault_mem (s : State) (c : FaultCode) (w : Word) : (s.enterFault c w).mem = s.mem := rfl
@[simp] theorem State.enterFault_v (s : State) (c : FaultCode) (w : Word) : (s.enterFault c w).v = s.v := rfl
@[simp] theorem State.enterFault_i (s : State) (c : FaultCode) (w : Word) : (s.enterFault c w).i = s.i := rfl
@[simp] theorem State.enterFault_pc (s : State) (c : FaultCode) (w : Word) : (s.enterFault c w).pc = ofAddr s.instrAddr := rfl
@[simp] theorem State.enterFault_stack (s : State) (c : FaultCode) (w : Word) : (s.enterFault c w).stack = s.stack := rfl
@[simp] theorem State.enterFault_sp (s : State) (c : FaultCode) (w : Word) : (s.enterFault c w).sp = s.sp := rfl
@[simp] theorem State.enterFault_dt (s : State) (c : FaultCode) (w : Word) : (s.enterFault c w).dt = s.dt := rfl
@[simp] theorem State.enterFault_st (s : State) (c : FaultCode) (w : Word) : (s.enterFault c w).st = s.st := rfl
@[simp] theorem State.enterFault_fb (s : State) (c : FaultCode) (w : Word) : (s.enterFault c w).fb = s.fb := rfl
@[simp] theorem State.enterFault_key (s : State) (c : FaultCode) (w : Word) : (s.enterFault c w).key = s.key := rfl
@[simp] theorem State.enterFault_awaiting (s : State) (c : FaultCode) (w : Word) : (s.enterFault c w).awaiting = s.awaiting := rfl
@[simp] theorem State.enterFault_kwPrev (s : State) (c : FaultCode) (w : Word) : (s.enterFault c w).kwPrev = s.kwPrev := rfl
@[simp] theorem State.enterFault_fault (s : State) (c : FaultCode) (w : Word) : (s.enterFault c w).fault = some ⟨c, s.instrAddr, w⟩ := rfl
@[simp] theorem State.enterFault_draws (s : State) (c : FaultCode) (w : Word) : (s.enterFault c w).draws = s.draws := rfl
@[simp] theorem State.enterFault_readV (s : State) (c : FaultCode) (w : Word) (r : Reg) : (s.enterFault c w).readV r = s.readV r := rfl
@[simp] theorem State.enterFault_memRead (s : State) (c : FaultCode) (w : Word) (a' : Addr) : (s.enterFault c w).memRead a' = s.memRead a' := rfl
@[simp] theorem State.enterFault_dataAddr (s : State) (c : FaultCode) (w : Word) (j : Nat) : (s.enterFault c w).dataAddr j = s.dataAddr j := rfl

/-! ### finishDraw -/

@[simp] theorem finishDraw_cfg (s : State) (p : Canvas) : (finishDraw s p).cfg = s.cfg := rfl
@[simp] theorem finishDraw_mem (s : State) (p : Canvas) : (finishDraw s p).mem = s.mem := rfl
@[simp] theorem finishDraw_v (s : State) (p : Canvas) : (finishDraw s p).v = s.v.set vF (flagByte p.2) := rfl
@[simp] theorem finishDraw_i (s : State) (p : Canvas) : (finishDraw s p).i = s.i := rfl
@[simp] theorem finishDraw_pc (s : State) (p : Canvas) : (finishDraw s p).pc = s.pc := rfl
@[simp] theorem finishDraw_stack (s : State) (p : Canvas) : (finishDraw s p).stack = s.stack := rfl
@[simp] theorem finishDraw_sp (s : State) (p : Canvas) : (finishDraw s p).sp = s.sp := rfl
@[simp] theorem finishDraw_dt (s : State) (p : Canvas) : (finishDraw s p).dt = s.dt := rfl
@[simp] theorem finishDraw_st (s : State) (p : Canvas) : (finishDraw s p).st = s.st := rfl
@[simp] theorem finishDraw_fb (s : State) (p : Canvas) : (finishDraw s p).fb = p.1 := rfl
@[simp] theorem finishDraw_key (s : State) (p : Canvas) : (finishDraw s p).key = s.key := rfl
@[simp] theorem finishDraw_awaiting (s : State) (p : Canvas) : (finishDraw s p).awaiting = s.awaiting := rfl
@[simp] theorem finishDraw_kwPrev (s : State) (p : Canvas) : (finishDraw s p).kwPrev = s.kwPrev := rfl
@[simp] theorem finishDraw_fault (s : State) (p : Canvas) : (finishDraw s p).fault = s.fault := rfl
@[simp] theorem finishDraw_draws (s : State) (p : Canvas) : (finishDraw s p).draws = s.draws := rfl
@[simp] theorem finishDraw_memRead (s : State) (p : Canvas) (a' : Addr) : (finishDraw s p).memRead a' = s.memRead a' := rfl
@[simp] theorem finishDraw_dataAddr (s : State) (p : Canvas) (j : Nat) : (finishDraw s p).dataAddr j = s.dataAddr j := rfl

/-! ### setKey -/

@[simp] theorem setKey_cfg (s : State) (k : Reg) (down : Bool) : (setKey k down s).cfg = s.cfg := rfl
@[simp] theorem setKey_mem (s : State) (k : Reg) (down : Bool) : (setKey k down s).mem = s.mem := rfl
@[simp] theorem setKey_v (s : State) (k : Reg) (down : Bool) : (setKey k down s).v = s.v := rfl
@[simp] theorem setKey_i (s : State) (k : Reg) (down : Bool) : (setKey k down s).i = s.i := rfl
@[simp] theorem setKey_pc (s : State) (k : Reg) (down : Bool) : (setKey k down s).pc = s.pc := rfl
@[simp] theorem setKey_stack (s : State) (k : Reg) (down : Bool) : (setKey k down s).stack = s.stack := rfl
@[simp] theorem setKey_sp (s : State) (k : Reg) (down : Bool) : (setKey k down s).sp = s.sp := rfl
@[simp] theorem setKey_dt (s : State) (k : Reg) (down : Bool) : (setKey k down s).dt = s.dt := rfl
@[simp] theorem setKey_st (s : State) (k : Reg) (down : Bool) : (setKey k down s).st = s.st := rfl
@[simp] theorem setKey_fb (s : State) (k : Reg) (down : Bool) : (setKey k down s).fb = s.fb := rfl
@[simp] theorem setKey_key (s : State) (k : Reg) (down : Bool) : (setKey k down s).key = if down then s.key ||| keyBit k else s.key &&& ~~~keyBit k := rfl
@[simp] theorem setKey_awaiting (s : State) (k : Reg) (down : Bool) : (setKey k down s).awaiting = s.awaiting := rfl
@[simp] theorem setKey_kwPrev (s : State) (k : Reg) (down : Bool) : (setKey k down s).kwPrev = s.kwPrev := rfl
@[simp] theorem setKey_fault (s : State) (k : Reg) (down : Bool) : (setKey k down s).fault = s.fault := rfl
@[simp] theorem setKey_draws (s : State) (k : Reg) (down : Bool) : (setKey k down s).draws = s.draws := rfl
@[simp] theorem setKey_readV (s : State) (k : Reg) (down : Bool) (r : Reg) : (setKey k down s).readV r = s.readV r := rfl
@[simp] theorem setKey_memRead (s : State) (k : Reg) (down : Bool) (a' : Addr) : (setKey k down s).memRead a' = s.memRead a' := rfl
@[simp] theorem setKey_dataAddr (s : State) (k : Reg) (down : Bool) (j : Nat) : (setKey k down s).dataAddr j = s.dataAddr j := rfl

/-! ### tick -/

@[simp] theorem tick_cfg (s : State) : (tick s).cfg = s.cfg := rfl
@[simp] theorem tick_mem (s : State) : (tick s).mem = s.mem := rfl
@[simp] theorem tick_v (s : State) : (tick s).v = s.v := rfl
@[simp] theorem tick_i (s : State) : (tick s).i = s.i := rfl
@[simp] theorem tick_pc (s : State) : (tick s).pc = s.pc := rfl
@[simp] theorem tick_stack (s : State) : (tick s).stack = s.stack := rfl
@[simp] theorem tick_sp (s : State) : (tick s).sp = s.sp := rfl
@[simp] theorem tick_dt (s : State) : (tick s).dt = tickTimer s.dt := rfl
@[simp] theorem tick_st (s : State) : (tick s).st = tickTimer s.st := rfl
@[simp] theorem tick_fb (s : State) : (tick s).fb = s.fb := rfl
@[simp] theorem tick_key (s : State) : (tick s).key = s.key := rfl
@[simp] theorem tick_awaiting (s : State) : (tick s).awaiting = s.awaiting := rfl
@[simp] theorem tick_kwPrev (s : State) : (tick s).kwPrev = s.kwPrev := rfl
@[simp] theorem tick_fault (s : State) : (tick s).fault = s.fault := rfl
@[simp] theorem tick_draws (s : State) : (tick s).draws = s.draws := rfl
@[simp] theorem tick_readV (s : State) (r : Reg) : (tick s).readV r = s.readV r := rfl
@[simp] theorem tick_memRead (s : State) (a' : Addr) : (tick s).memRead a' = s.memRead a' := rfl
@[simp] theorem tick_dataAddr (s : State) (j : Nat) : (tick s).dataAddr j = s.dataAddr j := rfl

end Sys2Proof.Machine
end

