-- ==== Sys2Proof/Laws/Registers.lean ====
section
/-! SUPPORT. Registers, addresses, the return stack and keys: what each accessor reads after each write. -/

namespace Sys2Proof.Machine

/-! ### Addresses -/

@[simp] theorem toAddr_ofAddr (a : Addr) : toAddr (ofAddr a) = a := by
  apply BitVec.eq_of_toNat_eq
  have := a.isLt
  simp only [toAddr, ofAddr, BitVec.toNat_setWidth]
  omega

/-- A 16-bit value below 4096 is its address. -/
theorem ofAddr_toAddr (w : Word) (h : w.toNat < 4096) : ofAddr (toAddr w) = w := by
  apply BitVec.eq_of_toNat_eq
  simp only [toAddr, ofAddr, BitVec.toNat_setWidth]
  omega

@[simp] theorem toNat_ofAddr (a : Addr) : (ofAddr a).toNat = a.toNat := by
  have := a.isLt
  simp only [ofAddr, BitVec.toNat_setWidth]
  omega

@[simp] theorem toNat_toAddr (w : Word) : (toAddr w).toNat = w.toNat % 4096 := by
  simp [toAddr]

theorem toNat_ofAddr_lt (a : Addr) : (ofAddr a).toNat < 4096 := by
  rw [toNat_ofAddr]; exact a.isLt

/-- While an instruction executes, PC minus 2 is its address (R16). -/
@[simp] theorem advance_instrAddr (s : State) : s.advance.instrAddr = toAddr s.pc := by
  simp [State.instrAddr]

@[simp] theorem toNat_dataAddr (s : State) (k : Nat) : (s.dataAddr k).toNat = (s.i.toNat + k) % 4096 := by
  simp [State.dataAddr, Nat.add_mod]

/-- An address as 16 bits of storage, by number. -/
theorem ofAddr_eq (a : Addr) : ofAddr a = BitVec.ofNat 16 a.toNat := by
  apply BitVec.eq_of_toNat_eq
  have := a.isLt
  simp
  omega

/-- The address of a 16-bit value, by number. -/
theorem toAddr_eq (w : Word) : toAddr w = BitVec.ofNat 12 w.toNat := by
  apply BitVec.eq_of_toNat_eq
  simp

/-- The advance of PC, by number (R96, R120). -/
theorem advance_eq (s : State) : s.advance = { s with pc := BitVec.ofNat 16 ((s.pc.toNat + 2) % 4096) } := by
  unfold State.advance State.setPc
  rw [ofAddr_eq]
  congr 2
  simp [Nat.add_mod]

/-- The instruction's address, when PC is 2 past it modulo 4096 (R16). -/
theorem instrAddr_eq (s : State) (a : Addr) (h : s.pc.toNat = (a.toNat + 2) % 4096) : s.instrAddr = a := by
  apply BitVec.eq_of_toNat_eq
  have := a.isLt
  simp [State.instrAddr, h]
  omega

/-! ### V0 to VF -/

@[simp] theorem readV_writeV (s : State) (x r : Reg) (b : Byte) : (s.writeV x b).readV r = if r = x then b else s.readV r := by
  unfold State.readV State.writeV
  simp only [Fin.getElem_fin, Vector.getElem_set, Fin.ext_iff, eq_comm]

theorem readV_writeV_same (s : State) (x : Reg) (b : Byte) : (s.writeV x b).readV x = b := by simp

theorem readV_writeV_other (s : State) (x r : Reg) (b : Byte) (h : r ≠ x) : (s.writeV x b).readV r = s.readV r := by simp [h]

/-- A flagged write: VF keeps the flag, the destination its result unless it is VF (R36). -/
@[simp] theorem readV_writeFlagged (s : State) (x r : Reg) (b : Byte) (f : Bool) :
    (s.writeFlagged x b f).readV r = if r = vF then flagByte f else if r = x then b else s.readV r := by
  simp [State.writeFlagged]

@[simp] theorem readV_finishDraw (s : State) (p : Canvas) (r : Reg) :
    (finishDraw s p).readV r = if r = vF then flagByte p.2 else s.readV r := by
  simp [finishDraw]

@[simp] theorem toNat_flagByte (f : Bool) : (flagByte f).toNat = if f then 1 else 0 := by cases f <;> rfl

/-- Two states with the same registers one by one have the same register file. -/
theorem v_ext (s t : State) (h : ∀ r, s.readV r = t.readV r) : s.v = t.v := by
  apply Vector.ext
  intro i hi
  exact h ⟨i, hi⟩

/-- Fx65 changes V alone. -/
theorem loadRegs_eq (s : State) (n : Nat) : s.loadRegs n = { s with v := (s.loadRegs n).v } := by
  induction n with
  | zero => rfl
  | succ n ih => rw [State.loadRegs, ih]; rfl

@[simp] theorem loadRegs_memRead (s : State) (n : Nat) (a : Addr) : (s.loadRegs n).memRead a = s.memRead a := by
  rw [loadRegs_eq]; rfl

/-- V[r] after Fx65 has loaded n registers: the byte at `I + r` for r below n (R320). -/
theorem readV_loadRegs (s : State) (n : Nat) (hn : n ≤ 16) (r : Reg) :
    (s.loadRegs n).readV r = if r.val < n then s.memRead (s.dataAddr r.val) else s.readV r := by
  induction n with
  | zero => simp [State.loadRegs]
  | succ n ih =>
    have e : r = Fin.ofNat 16 n ↔ r.val = n := by
      rw [Fin.ext_iff, Fin.val_ofNat, Nat.mod_eq_of_lt (by omega)]
    rw [State.loadRegs, readV_writeV, ih (by omega)]
    by_cases h : r.val = n
    · rw [if_pos (e.2 h), if_pos (by omega), h]
    · rw [if_neg (fun c => h (e.1 c))]
      by_cases h' : r.val < n
      · rw [if_pos h', if_pos (by omega)]
      · rw [if_neg h', if_neg (by omega)]

/-- The registers Fx55 stores: V0 to Vx, x + 1 of them (R315). -/
@[simp] theorem length_regsUpTo (s : State) (x : Reg) : (s.regsUpTo x).length = x.val + 1 := by
  have := x.isLt
  simp only [State.regsUpTo, List.length_take, Vector.length_toList]
  omega

theorem getElem_regsUpTo (s : State) (x : Reg) (k : Nat) (h : k < (s.regsUpTo x).length) :
    (s.regsUpTo x)[k] = s.readV ⟨k, by have := x.isLt; rw [length_regsUpTo] at h; omega⟩ := by
  simp [State.regsUpTo, State.readV]

@[simp] theorem length_bcdDigits (b : Byte) : (bcdDigits b).length = 3 := rfl

/-! ### The return stack -/

theorem push_full (s : State) (w : Word) (h : s.sp.val = 16) : s.push w = none := by simp [State.push, h]

theorem push_room (s : State) (w : Word) (h : s.sp.val < 16) :
    s.push w = some { s with stack := s.stack.set s.sp.val w, sp := ⟨s.sp.val + 1, Nat.succ_lt_succ h⟩ } := by
  simp [State.push, h]

theorem pop_empty (s : State) (h : s.sp.val = 0) : s.pop = none := by simp [State.pop, h]

theorem pop_live (s : State) (h : 0 < s.sp.val) :
    s.pop = some (s.stack[s.sp.val - 1]'(by have := s.sp.isLt; omega),
      { s with sp := ⟨s.sp.val - 1, by have := s.sp.isLt; omega⟩ }) := by
  simp [State.pop, h]

/-- A pop after a push gives the pushed entry and the stack pointer from before it (the source's stack round trip). -/
theorem pop_push (s t : State) (w : Word) (h : s.push w = some t) : t.pop = some (w, { t with sp := s.sp }) := by
  unfold State.push at h
  split at h
  · cases h; simp [State.pop]
  · cases h

/-! ### Keys -/

theorem keyOf_lt (b : Byte) (h : b.toNat < 16) : keyOf b = some ⟨b.toNat, h⟩ := by simp [keyOf, h]

theorem keyOf_ge (b : Byte) (h : 16 ≤ b.toNat) : keyOf b = none := by simp [keyOf]; omega

/-- The key bit after a key write (R432). -/
theorem keyDown_setKey (s : State) (k j : Reg) (down : Bool) :
    (setKey k down s).keyDown j = if j = k then down else s.keyDown j := by
  have bit : ∀ a b : Reg, (keyBit a).getLsbD b.val = decide (b = a) := by decide +revert
  have hj := j.isLt
  unfold State.keyDown
  rw [setKey_key]
  cases down
  · simp only [Bool.false_eq_true, if_false, BitVec.getLsbD_and, BitVec.getLsbD_not, bit, hj, decide_true, Bool.true_and]
    by_cases h : j = k <;> simp [h]
  · simp only [if_true, BitVec.getLsbD_or, bit]
    by_cases h : j = k <;> simp [h]

/-- The keys that satisfy a wait, key by key (R285). -/
theorem waitKeys_iff (s : State) (k : Reg) : s.waitKeys.getLsbD k.val = true ↔ Satisfies s k := by
  unfold State.waitKeys Satisfies
  cases s.cfg.keywaitTrigger
  · simp
  · cases s.awaiting
    · simp
    · simp [k.isLt]

/-- A wait goes on exactly when no key satisfies it (R285). -/
theorem waitKeys_zero (s : State) : s.waitKeys = 0 ↔ ¬∃ k, Satisfies s k := by
  constructor
  · rintro h ⟨k, hk⟩
    rw [← waitKeys_iff, h] at hk
    simp at hk
  · intro h
    apply BitVec.eq_of_getLsbD_eq
    intro j hj
    by_contra hc
    exact h ⟨⟨j, hj⟩, (waitKeys_iff s ⟨j, hj⟩).1 (by simpa using hc)⟩

/-- The lowest key of a non-empty set is in it, and no lower key is (D11). -/
theorem lowestKey_spec (set : Word) (h : set ≠ 0) :
    set.getLsbD (lowestKey set).val = true ∧ ∀ j : Reg, j < lowestKey set → set.getLsbD j.val = false := by
  have hex : ∃ k, k < 16 ∧ set.getLsbD k = true := by
    by_contra hc
    push Not at hc
    exact h (BitVec.eq_of_getLsbD_eq fun i hi => by simpa using hc i hi)
  obtain ⟨k, hk, hks⟩ := hex
  have hsome : ((List.range 16).find? fun k => set.getLsbD k).isSome := by
    rw [List.find?_isSome]
    exact ⟨k, List.mem_range.2 hk, hks⟩
  obtain ⟨m, hm⟩ := Option.isSome_iff_exists.1 hsome
  have hm' := hm
  rw [List.find?_range_eq_some] at hm'
  have hlt : m < 16 := List.mem_range.1 hm'.2.1
  have hv : (lowestKey set).val = m := by
    simp [lowestKey, hm, Nat.mod_eq_of_lt hlt]
  constructor
  · rw [hv]; exact hm'.1
  · intro j hj
    have := hm'.2.2 j.val (by rw [← hv]; exact hj)
    simpa using this

/-- `select_key(S)` is one of the keys of a non-empty S, whatever the parameter (R8, R14). -/
theorem selectKey_mem (c : Config) (set : Word) (h : set ≠ 0) : set.getLsbD (selectKey c set).val = true := by
  unfold selectKey
  split
  · split
    · assumption
    · exact (lowestKey_spec set h).1
  · exact (lowestKey_spec set h).1

/-- The key Fx0A takes is the one KEYWAIT_SELECT selects among the keys that satisfy the wait (R285). -/
theorem selectKey_selects (s : State) (h : s.waitKeys ≠ 0) : Selects s (selectKey s.cfg s.waitKeys) := by
  refine ⟨(waitKeys_iff _ _).1 (selectKey_mem _ _ h), fun set hset => ?_⟩
  have same : set = s.waitKeys := BitVec.eq_of_getLsbD_eq fun i hi =>
    Bool.eq_iff_iff.2 ((hset ⟨i, hi⟩).trans (waitKeys_iff s ⟨i, hi⟩).symm)
  subst same
  refine ⟨fun e he hs => ?_, fun hn j hj => ?_⟩
  · simp [selectKey, he, (waitKeys_iff s e).2 hs]
  · have low : selectKey s.cfg s.waitKeys = lowestKey s.waitKeys := by
      unfold selectKey
      split
      · rename_i e he
        rw [if_neg fun hb => hn e he ((waitKeys_iff s e).1 hb)]
      · rfl
    rw [low]
    by_contra hlt
    have := (lowestKey_spec _ h).2 j (Fin.not_le.1 hlt)
    rw [(waitKeys_iff s j).2 hj] at this
    cases this

/-- Every selection function of R8's domain is the `selectKey` of some parameters: the list form of KEYWAIT_SELECT leaves
none of them out. -/
theorem selectKey_represents (c : Config) (f : Word → Reg) (hf : ∀ set : Word, set ≠ 0 → set.getLsbD (f set).val = true) :
    ∃ l, ∀ set : Word, set ≠ 0 → selectKey { c with keywaitSelect := l } set = f set := by
  refine ⟨(List.range 65536).map fun n => (BitVec.ofNat 16 n, f (BitVec.ofNat 16 n)), fun set h => ?_⟩
  have look : ∀ l : List Word, set ∈ l → (l.map fun w => (w, f w)).lookup set = some (f set) := by
    intro l
    induction l with
    | nil => simp
    | cons w l ih =>
      intro hm
      by_cases hw : set = w
      · simp [hw]
      · have : (set == w) = false := by simpa using hw
        simp only [List.map_cons, List.lookup_cons, this]
        exact ih (by simpa [hw] using hm)
  have hmem : set ∈ (List.range 65536).map (BitVec.ofNat 16) :=
    List.mem_map.2 ⟨set.toNat, List.mem_range.2 set.isLt, by simp⟩
  have := look _ hmem
  rw [List.map_map] at this
  simp only [selectKey, Function.comp_def] at this ⊢
  rw [this]
  simp only [hf set h, if_true]

end Sys2Proof.Machine
end

