-- ==== Sys2Proof/Laws/Framebuffer.lean ====
section
/-! SUPPORT. The framebuffer: a pixel read after a write, a cleared framebuffer, and what toggling does. -/

namespace Sys2Proof.Machine

/-- A pixel read after a write: the written value at its place, every other pixel as before. -/
@[simp] theorem pixel_setPixel (fb : Framebuffer) (px qx : Fin 64) (py qy : Fin 32) (b : Bool) :
    pixel (setPixel fb px py b) qx qy = if qx = px ∧ qy = py then b else pixel fb qx qy := by
  unfold pixel setPixel
  simp only [Fin.getElem_fin, Vector.getElem_set, Fin.ext_iff]
  by_cases hy : py.val = qy.val
  · simp only [hy, if_true, Vector.getElem_set, and_true]
    by_cases hx : px.val = qx.val
    · simp [hx]
    · simp [hx, show qx.val ≠ px.val from fun e => hx e.symm]
  · simp [hy, show qy.val ≠ py.val from fun e => hy e.symm]

@[simp] theorem pixel_clearedFb (px : Fin 64) (py : Fin 32) : pixel clearedFb px py = false := by
  simp [pixel, clearedFb]

/-- Two framebuffers with the same pixels are the same. -/
theorem fb_ext (f g : Framebuffer) (h : ∀ px py, pixel f px py = pixel g px py) : f = g := by
  apply Vector.ext
  intro j hj
  apply Vector.ext
  intro i hi
  exact h ⟨i, hi⟩ ⟨j, hj⟩

/-- A toggled pixel is inverted; every other pixel is as before. -/
theorem pixel_togglePixel (px qx : Fin 64) (py qy : Fin 32) (p : Canvas) :
    pixel (togglePixel px py p).1 qx qy = if qx = px ∧ qy = py then !pixel p.1 qx qy else pixel p.1 qx qy := by
  unfold togglePixel
  rw [pixel_setPixel]
  split
  · rename_i h; rw [h.1, h.2]
  · rfl

/-- A collision is recorded when the toggled pixel was on. -/
theorem collide_togglePixel (px : Fin 64) (py : Fin 32) (p : Canvas) :
    (togglePixel px py p).2 = (p.2 || pixel p.1 px py) := rfl

end Sys2Proof.Machine
end

