-- ==== Sys2Proof/Laws/Memory.lean ====
section
/-! SUPPORT. Memory: a read after a write, the canonical form, and that equal memories are equal lists. -/

namespace Sys2Proof.Machine

/-- An address below every entry reads as what an unlisted address reads as. -/
theorem memGet_below (bg : Nat → Byte) (m : Memory) (lo a : Nat) (h : memCanonical bg lo m = true) (ha : a < lo) :
    memGet bg m a = bg a := by
  induction m generalizing lo with
  | nil => rfl
  | cons e m ih =>
    obtain ⟨k, y⟩ := e
    simp only [memCanonical, Bool.and_eq_true, decide_eq_true_eq] at h
    simp only [memGet]
    rw [if_neg (by omega)]
    exact ih (k + 1) h.2 (by omega)

/-- A read after a write to the list: the written byte at its address, every other byte as before. -/
theorem memGet_memSet (bg : Nat → Byte) (a b : Nat) (x : Byte) (m : Memory) (lo : Nat) (h : memCanonical bg lo m = true) :
    memGet bg (memSet bg a x m) b = if b = a then x else memGet bg m b := by
  induction m generalizing lo with
  | nil =>
    simp only [memSet, memGet]
    by_cases hx : x = bg a <;> by_cases hb : b = a <;> simp [hx, hb, memGet]
  | cons e m ih =>
    obtain ⟨k, y⟩ := e
    simp only [memCanonical, Bool.and_eq_true, decide_eq_true_eq] at h
    obtain ⟨⟨⟨hlo, hk⟩, hy⟩, hm⟩ := h
    have tail : ∀ c, c ≤ k → memGet bg m c = bg c := fun c hc => memGet_below bg m (k + 1) c hm (by omega)
    rcases Nat.lt_trichotomy a k with h1 | h1 | h1
    · rw [memSet, if_pos h1]
      by_cases hx : x = bg a <;> by_cases hb : b = a
      · subst hb; simp [hx, memGet, show b ≠ k by omega, tail b (by omega)]
      · simp [hx, hb]
      · simp [hx, hb, memGet]
      · simp [hx, hb, memGet]
    · subst h1
      rw [memSet, if_neg (Nat.lt_irrefl a), if_pos rfl]
      by_cases hx : x = bg a <;> by_cases hb : b = a
      · subst hb; simp [hx, tail b (Nat.le_refl b)]
      · simp [hx, hb, memGet]
      · simp [hx, hb, memGet]
      · simp [hx, hb, memGet]
    · rw [memSet, if_neg (by omega), if_neg (by omega), memGet, memGet, ih (k + 1) hm]
      by_cases hbk : b = k
      · simp [hbk, show k ≠ a by omega]
      · simp [hbk]

/-- A lower bound of the canonical form may be lowered. -/
theorem memCanonical_mono (bg : Nat → Byte) (m : Memory) (lo lo' : Nat) (h : memCanonical bg lo m = true) (hle : lo' ≤ lo) :
    memCanonical bg lo' m = true := by
  cases m with
  | nil => rfl
  | cons e m =>
    obtain ⟨k, y⟩ := e
    simp only [memCanonical, Bool.and_eq_true, decide_eq_true_eq] at h ⊢
    exact ⟨⟨⟨by omega, h.1.1.2⟩, h.1.2⟩, h.2⟩

/-- A write keeps the canonical form. -/
theorem memCanonical_memSet (bg : Nat → Byte) (a : Nat) (x : Byte) (m : Memory) (lo : Nat) (h : memCanonical bg lo m = true)
    (hlo : lo ≤ a) (ha : a < 4096) : memCanonical bg lo (memSet bg a x m) = true := by
  induction m generalizing lo with
  | nil =>
    simp only [memSet]
    split_ifs with hx
    · rfl
    · simp [memCanonical, hlo, ha, hx]
  | cons e m ih =>
    obtain ⟨k, y⟩ := e
    have h' := h
    simp only [memCanonical, Bool.and_eq_true, decide_eq_true_eq, Bool.not_eq_true', beq_eq_false_iff_ne] at h
    obtain ⟨⟨⟨hk, hk'⟩, hy⟩, hm⟩ := h
    simp only [memSet]
    split_ifs with h1 h2 h2 h3
    · exact h'
    · simp only [memCanonical, Bool.and_eq_true, decide_eq_true_eq, Bool.not_eq_true', beq_eq_false_iff_ne]
      exact ⟨⟨⟨hlo, ha⟩, h2⟩, ⟨⟨by omega, hk'⟩, hy⟩, hm⟩
    · exact memCanonical_mono bg m (k + 1) lo hm (by omega)
    · simp only [memCanonical, Bool.and_eq_true, decide_eq_true_eq, Bool.not_eq_true', beq_eq_false_iff_ne]
      exact ⟨⟨⟨hlo, ha⟩, h3⟩, memCanonical_mono bg m (k + 1) (a + 1) hm (by omega)⟩
    · simp only [memCanonical, Bool.and_eq_true, decide_eq_true_eq, Bool.not_eq_true', beq_eq_false_iff_ne]
      exact ⟨⟨⟨hk, hk'⟩, hy⟩, ih (k + 1) hm (by omega)⟩

/-- Memory in canonical form is its contents: two that read alike everywhere are the same list. -/
theorem memCanonical_ext (bg : Nat → Byte) (m m' : Memory) (lo : Nat) (h : memCanonical bg lo m = true)
    (h' : memCanonical bg lo m' = true) (e : ∀ a, memGet bg m a = memGet bg m' a) : m = m' := by
  induction m generalizing lo m' with
  | nil =>
    cases m' with
    | nil => rfl
    | cons c m' =>
      obtain ⟨k, y⟩ := c
      simp only [memCanonical, Bool.and_eq_true, decide_eq_true_eq, Bool.not_eq_true', beq_eq_false_iff_ne] at h'
      exact absurd (by simpa [memGet] using (e k).symm) h'.1.2
  | cons c m ih =>
    obtain ⟨k, y⟩ := c
    cases m' with
    | nil =>
      simp only [memCanonical, Bool.and_eq_true, decide_eq_true_eq, Bool.not_eq_true', beq_eq_false_iff_ne] at h
      exact absurd (by simpa [memGet] using e k) h.1.2
    | cons c' m' =>
      obtain ⟨k', y'⟩ := c'
      have hb := h
      have hb' := h'
      simp only [memCanonical, Bool.and_eq_true, decide_eq_true_eq, Bool.not_eq_true', beq_eq_false_iff_ne] at h h'
      have hk : k = k' := by
        rcases Nat.lt_trichotomy k k' with hlt | heq | hgt
        · have := e k
          have below := memGet_below bg m' (k' + 1) k h'.2 (by omega)
          simp only [memGet, if_true, if_neg (show k ≠ k' by omega), below] at this
          exact absurd this h.1.2
        · exact heq
        · have := e k'
          have below := memGet_below bg m (k + 1) k' h.2 (by omega)
          simp only [memGet, if_true, if_neg (show k' ≠ k by omega), below] at this
          exact absurd this.symm h'.1.2
      subst hk
      have hy : y = y' := by simpa [memGet] using e k
      subst hy
      congr 1
      refine ih m' (k + 1) h.2 h'.2 fun a => ?_
      by_cases hak : a = k
      · subst hak
        rw [memGet_below bg m (a + 1) a h.2 (by omega), memGet_below bg m' (a + 1) a h'.2 (by omega)]
      · simpa [memGet, hak] using e a

/-- A byte read after a write: the written byte at its address, every other byte as before. -/
theorem memRead_memWrite (s : State) (a b : Addr) (x : Byte) (h : Memory.wf s.cfg s.mem = true) :
    (s.memWrite a x).memRead b = if b = a then x else s.memRead b := by
  simp only [State.memRead, State.memWrite_cfg, State.memWrite_mem, memGet_memSet _ _ _ _ _ 0 h]
  by_cases hb : b = a
  · simp [hb]
  · simp [hb, show b.toNat ≠ a.toNat from fun e => hb (BitVec.eq_of_toNat_eq e)]

/-- A write keeps the canonical form. -/
theorem memWrite_wf (s : State) (a : Addr) (x : Byte) (h : Memory.wf s.cfg s.mem = true) :
    Memory.wf (s.memWrite a x).cfg (s.memWrite a x).mem = true :=
  memCanonical_memSet _ _ _ _ 0 h (Nat.zero_le _) a.isLt

/-- What `storeBytes` changes: memory alone. -/
theorem storeBytes_eq (s : State) (a : Addr) (bs : List Byte) : s.storeBytes a bs = { s with mem := (s.storeBytes a bs).mem } := by
  induction bs generalizing s a with
  | nil => rfl
  | cons b bs ih => rw [State.storeBytes, ih]; rfl

/-- Storing bytes keeps the canonical form. -/
theorem storeBytes_wf (s : State) (a : Addr) (bs : List Byte) (h : Memory.wf s.cfg s.mem = true) :
    Memory.wf (s.storeBytes a bs).cfg (s.storeBytes a bs).mem = true := by
  induction bs generalizing s a with
  | nil => exact h
  | cons b bs ih => exact ih _ _ (memWrite_wf s a b h)

/-- A byte outside the stored ones reads as before. -/
theorem memRead_storeBytes_other (s : State) (a : Addr) (bs : List Byte) (b : Addr) (h : Memory.wf s.cfg s.mem = true)
    (hb : ∀ k, k < bs.length → b ≠ a + BitVec.ofNat 12 k) : (s.storeBytes a bs).memRead b = s.memRead b := by
  induction bs generalizing s a with
  | nil => rfl
  | cons x bs ih =>
    rw [State.storeBytes, ih _ _ (memWrite_wf s a x h), memRead_memWrite s a b x h, if_neg]
    · simpa using hb 0 (by simp)
    · intro k hk
      have := hb (k + 1) (by simpa using hk)
      intro e
      exact this (by rw [e, BitVec.add_assoc]; congr 1; apply BitVec.eq_of_toNat_eq; simp [Nat.add_comm])

/-- The k-th stored byte is read back, as long as the bytes stored do not come round to their start. -/
theorem memRead_storeBytes_at (s : State) (a : Addr) (bs : List Byte) (k : Nat) (hk : k < bs.length) (hl : bs.length ≤ 4096)
    (h : Memory.wf s.cfg s.mem = true) : (s.storeBytes a bs).memRead (a + BitVec.ofNat 12 k) = bs[k] := by
  induction bs generalizing s a k with
  | nil => simp at hk
  | cons x bs ih =>
    rw [State.storeBytes]
    cases k with
    | zero =>
      rw [memRead_storeBytes_other _ _ _ _ (memWrite_wf s a x h), memRead_memWrite s a _ x h]
      · simp
      · intro j hj e
        have : (a + BitVec.ofNat 12 0).toNat = (a + 1 + BitVec.ofNat 12 j).toNat := by rw [e]
        simp at this hl
        have := a.isLt
        omega
    | succ k =>
      have e : a + BitVec.ofNat 12 (k + 1) = a + 1 + BitVec.ofNat 12 k := by
        rw [BitVec.add_assoc]; congr 1; apply BitVec.eq_of_toNat_eq; simp [Nat.add_comm]
      rw [e, ih _ _ k (by simpa using hk) (by simp at hl; omega) (memWrite_wf s a x h)]
      simp

/-- Memory at reset lists nothing and is canonical. -/
theorem memory_wf_nil (c : Config) : Memory.wf c [] = true := rfl

end Sys2Proof.Machine
end

