-- ==== Sys2Proof/Laws/Exec.lean ====
section
/-! SUPPORT. What each shared operation of the meanings can do, said once, and that every instruction and every step has a
next state. -/

namespace Sys2Proof.Machine

/-- A fault is taken as a next state: fault entry (R410). -/
theorem raiseFault_next (s t : State) (c : FaultCode) (w : Word) : raiseFault s c w = .next t ↔ t = s.enterFault c w := by
  simp [raiseFault, eq_comm]

/-- What a skip can do: advance once more, or nothing (R120). -/
theorem skipIf_next (s t : State) (b : Bool) : skipIf s b = .next t ↔ t = if b then s.advance else s := by
  simp [skipIf, eq_comm]

/-- What a key skip can do: fault entry when the register names no key, else a skip on that key (R260, R262, R265). -/
theorem skipOnKey_next (s t : State) (x : Reg) (down : Bool) (w : Word) : skipOnKey s x down w = .next t ↔
    (16 ≤ (s.readV x).toNat ∧ t = s.enterFault .keyRange w) ∨
      (∃ h : (s.readV x).toNat < 16,
        t = if s.keyDown ⟨(s.readV x).toNat, h⟩ = down then s.advance else s) := by
  unfold skipOnKey
  by_cases h : (s.readV x).toNat < 16
  · rw [keyOf_lt _ h]
    constructor
    · intro e
      exact .inr ⟨h, by simpa using (skipIf_next _ _ _).1 e⟩
    · rintro (⟨h', _⟩ | ⟨_, e⟩)
      · omega
      · exact (skipIf_next _ _ _).2 (by simpa using e)
  · rw [keyOf_ge _ (by omega)]
    constructor
    · intro e
      exact .inl ⟨by omega, (raiseFault_next _ _ _ _).1 e⟩
    · rintro (⟨_, e⟩ | ⟨h', _⟩)
      · exact (raiseFault_next _ _ _ _).2 e
      · exact absurd h' h

/-- The font rule, said with a byte of the access (R74). -/
theorem fontHit_iff (s : State) (n : Nat) : s.fontHit n = true ↔
    s.cfg.fontWritePolicy = .fault ∧ ∃ k, k < n ∧ inFont s.cfg (s.dataAddr k) = true := by
  simp [State.fontHit]

/-- The test of the meanings is the font rule as it is said by number (R74). -/
theorem fontHit_iff_writesFont (s : State) (n : Nat) : s.fontHit n = true ↔ WritesFont s n := by
  rw [fontHit_iff]
  simp [inFont]

/-- What a store at I can do: fault entry when the font rule is hit, else the bytes are stored (R74, R310, R315). -/
theorem storeAtI_next (s t : State) (w : Word) (bs : List Byte) : storeAtI s w bs = .next t ↔
    (WritesFont s bs.length ∧ t = s.enterFault .fontWrite w) ∨
      (¬WritesFont s bs.length ∧ t = s.storeBytes (s.dataAddr 0) bs) := by
  rw [← fontHit_iff_writesFont]
  unfold storeAtI
  cases s.fontHit bs.length <;> simp [raiseFault, eq_comm]

/-- The k-th byte stored from I on lies at `I + k` (R64). -/
theorem dataAddr_zero_add (s : State) (k : Nat) : s.dataAddr 0 + BitVec.ofNat 12 k = s.dataAddr k := by
  simp [State.dataAddr]

/-- Every instruction has a next state: this core stops on none (R400, R410). -/
theorem exec_next (i : Instr) (s : State) : ∃ t, exec i s = .next t := by
  have raise : ∀ c w, ∃ t, raiseFault s c w = .next t := fun c w => ⟨_, rfl⟩
  have skip : ∀ b, ∃ t, skipIf s b = .next t := fun b => ⟨_, rfl⟩
  have key : ∀ x d w, ∃ t, skipOnKey s x d w = .next t := by
    intro x d w; unfold skipOnKey; split <;> exact ⟨_, rfl⟩
  have store : ∀ w bs, ∃ t, storeAtI s w bs = .next t := by
    intro w bs; unfold storeAtI; split <;> exact ⟨_, rfl⟩
  cases i
  case ret => simp only [exec, execRet]; split <;> exact ⟨_, rfl⟩
  case call n => simp only [exec, execCall]; split <;> exact ⟨_, rfl⟩
  case ldVxK x => simp only [exec, execLdVxK]; split <;> exact ⟨_, rfl⟩
  case skp x => exact key _ _ _
  case sknp x => exact key _ _ _
  case ldB x => exact store _ _
  case ldMemVx x => exact store _ _
  all_goals exact ⟨_, rfl⟩

/-- What a step can do: nothing on a halted core, fault entry on an illegal word, else the decoded instruction on the state
with PC advanced (R96, R404, R412). -/
theorem step_cases (s t : State) (h : step s = .next t) :
    ((∃ f, s.fault = some f) ∧ t = s) ∨
    (s.fault = none ∧ (∃ e, decode s.fetchWord = .error e) ∧ t = s.advance.enterFault .illegalOpcode s.fetchWord) ∨
    (s.fault = none ∧ ∃ i, decode s.fetchWord = .ok i ∧ exec i s.advance = .next t) := by
  unfold step at h
  split at h
  · rename_i f hf
    exact .inl ⟨⟨f, hf⟩, by simpa [eq_comm] using h⟩
  · rename_i hf
    split at h
    · rename_i e he
      exact .inr (.inl ⟨hf, ⟨e, he⟩, (raiseFault_next _ _ _ _).1 h⟩)
    · rename_i i hi
      exact .inr (.inr ⟨hf, i, hi, h⟩)

/-- Every step has a next state. -/
theorem step_next (s : State) : ∃ t, step s = .next t := by
  unfold step
  split
  · exact ⟨_, rfl⟩
  · split
    · exact ⟨_, rfl⟩
    · exact exec_next _ _

/-- `after` is that state. -/
theorem step_after (s : State) : step s = .next (after s) := by
  obtain ⟨t, ht⟩ := step_next s
  simp [after, ht]

/-- The word placed by `withFetchWord` is the word the next step fetches. -/
theorem fetchWord_withFetchWord (s : State) (nbits w : Nat) (h : Memory.wf s.cfg s.mem = true) :
    (s.withFetchWord nbits w).fetchWord = BitVec.ofNat 16 (w % 2 ^ nbits) := by
  have hp : (s.withFetchWord nbits w).pc = s.pc := by rw [State.withFetchWord, storeBytes_eq]
  have h' : Memory.wf ({ s with fault := none } : State).cfg ({ s with fault := none } : State).mem = true := h
  have h0 := memRead_storeBytes_at { s with fault := none } (toAddr s.pc) (bytesOfWord (BitVec.ofNat 16 (w % 2 ^ nbits))) 0
    (by simp [bytesOfWord]) (by simp [bytesOfWord]) h'
  have h1 := memRead_storeBytes_at { s with fault := none } (toAddr s.pc) (bytesOfWord (BitVec.ofNat 16 (w % 2 ^ nbits))) 1
    (by simp [bytesOfWord]) (by simp [bytesOfWord]) h'
  rw [← wordOfBytes_bytesOfWord (BitVec.ofNat 16 (w % 2 ^ nbits)), State.fetchWord, hp]
  rw [show toAddr s.pc + BitVec.ofNat 12 0 = toAddr s.pc by simp] at h0
  rw [show (1 : Addr) = BitVec.ofNat 12 1 by rfl]
  unfold State.withFetchWord
  rw [h0, h1]
  rfl

end Sys2Proof.Machine
end

