-- ==== Sys2Proof/Laws/Draw.lean ====
section
/-! SUPPORT. The two loops of DRW (R235), each said once: which pixels are toggled, and when a collision is recorded. -/

namespace Sys2Proof.Machine

/-- Within one sprite row, different columns land on different framebuffer columns (R232). -/
theorem spriteColumn_inj (x0 : Byte) (c d : Nat) (hc : c < 8) (hd : d < 8) (h : spriteColumn x0 c = spriteColumn x0 d) :
    c = d := by
  have := congrArg Fin.val h
  simp only [spriteColumn, Fin.val_ofNat] at this
  omega

/-- Within one draw, different sprite rows land on different framebuffer rows (R232). -/
theorem spriteRow_inj (y0 : Byte) (r q : Nat) (hr : r < 16) (hq : q < 16) (h : spriteRow y0 r = spriteRow y0 q) : r = q := by
  have := congrArg Fin.val h
  simp only [spriteRow, Fin.val_ofNat] at this
  omega

/-- The pixels after the first m columns of a sprite row. -/
theorem pixel_drawColumns (x0 row : Byte) (py : Fin 32) (p : Canvas) (m : Nat) (hm : m ≤ 8) (qx : Fin 64) (qy : Fin 32) :
    ((∃ c, c < m ∧ spriteBit row c = true ∧ qx = spriteColumn x0 c ∧ qy = py) →
      pixel (drawColumns x0 py row p m).1 qx qy = !pixel p.1 qx qy) ∧
    ((¬∃ c, c < m ∧ spriteBit row c = true ∧ qx = spriteColumn x0 c ∧ qy = py) →
      pixel (drawColumns x0 py row p m).1 qx qy = pixel p.1 qx qy) := by
  induction m with
  | zero => exact ⟨fun ⟨c, hc, _⟩ => absurd hc (Nat.not_lt_zero c), fun _ => rfl⟩
  | succ m ih =>
    obtain ⟨ih1, ih2⟩ := ih (by omega)
    simp only [drawColumns]
    by_cases hb : spriteBit row m = true
    · rw [if_pos hb, pixel_togglePixel]
      by_cases hq : qx = spriteColumn x0 m ∧ qy = py
      · have none : ¬∃ c, c < m ∧ spriteBit row c = true ∧ qx = spriteColumn x0 c ∧ qy = py := by
          rintro ⟨c, hc, _, hx, _⟩
          have := spriteColumn_inj x0 m c (by omega) (by omega) (hq.1.symm.trans hx)
          omega
        rw [if_pos hq, ih2 none]
        exact ⟨fun _ => rfl, fun h => absurd ⟨m, by omega, hb, hq.1, hq.2⟩ h⟩
      · rw [if_neg hq]
        refine ⟨?_, fun h => ih2 fun ⟨c, hc, h'⟩ => h ⟨c, by omega, h'⟩⟩
        rintro ⟨c, hc, hs, hx, hy⟩
        have : c ≠ m := by rintro rfl; exact hq ⟨hx, hy⟩
        exact ih1 ⟨c, by omega, hs, hx, hy⟩
    · rw [if_neg hb]
      refine ⟨?_, fun h => ih2 fun ⟨c, hc, h'⟩ => h ⟨c, by omega, h'⟩⟩
      rintro ⟨c, hc, hs, h'⟩
      have : c ≠ m := by rintro rfl; exact hb hs
      exact ih1 ⟨c, by omega, hs, h'⟩

/-- The collision flag after the first m columns of a sprite row: one of the toggled pixels was on before them. -/
theorem collide_drawColumns (x0 row : Byte) (py : Fin 32) (p : Canvas) (m : Nat) (hm : m ≤ 8) :
    (drawColumns x0 py row p m).2 = true ↔
      p.2 = true ∨ ∃ c, c < m ∧ spriteBit row c = true ∧ pixel p.1 (spriteColumn x0 c) py = true := by
  induction m with
  | zero => simp [drawColumns]
  | succ m ih =>
    have ih := ih (by omega)
    simp only [drawColumns]
    by_cases hb : spriteBit row m = true
    · have same := (pixel_drawColumns x0 row py p m (by omega) (spriteColumn x0 m) py).2 (by
        rintro ⟨c, hc, _, hx, _⟩
        have := spriteColumn_inj x0 m c (by omega) (by omega) hx
        omega)
      rw [if_pos hb, collide_togglePixel, Bool.or_eq_true, ih, same]
      constructor
      · rintro ((h | ⟨c, hc, h⟩) | h)
        · exact .inl h
        · exact .inr ⟨c, by omega, h⟩
        · exact .inr ⟨m, by omega, hb, h⟩
      · rintro (h | ⟨c, hc, hs, h⟩)
        · exact .inl (.inl h)
        · by_cases e : c = m
          · subst e; exact .inr h
          · exact .inl (.inr ⟨c, by omega, hs, h⟩)
    · rw [if_neg hb, ih]
      constructor
      · rintro (h | ⟨c, hc, h⟩)
        · exact .inl h
        · exact .inr ⟨c, by omega, h⟩
      · rintro (h | ⟨c, hc, hs, h⟩)
        · exact .inl h
        · have : c ≠ m := by rintro rfl; exact hb hs
          exact .inr ⟨c, by omega, hs, h⟩

/-- A 1 bit of the first m sprite rows lands on the pixel, in the terms of the loop. -/
def DrawnOn (s : State) (x0 y0 : Byte) (m : Nat) (px : Fin 64) (py : Fin 32) : Prop :=
  ∃ r c, r < m ∧ c < 8 ∧ px = spriteColumn x0 c ∧ py = spriteRow y0 r ∧
    spriteBit (s.memRead (s.dataAddr r)) c = true

/-- The pixels after the first m rows of a draw. -/
theorem pixel_drawRows (s : State) (x0 y0 : Byte) (m : Nat) (hm : m < 16) (qx : Fin 64) (qy : Fin 32) :
    (DrawnOn s x0 y0 m qx qy → pixel (drawRows s x0 y0 m).1 qx qy = !pixel s.fb qx qy) ∧
    (¬DrawnOn s x0 y0 m qx qy → pixel (drawRows s x0 y0 m).1 qx qy = pixel s.fb qx qy) := by
  induction m with
  | zero => exact ⟨fun ⟨r, _, hr, _⟩ => absurd hr (Nat.not_lt_zero r), fun _ => rfl⟩
  | succ m ih =>
    obtain ⟨ih1, ih2⟩ := ih (by omega)
    obtain ⟨on, off⟩ := pixel_drawColumns x0 (s.memRead (s.dataAddr m)) (spriteRow y0 m) (drawRows s x0 y0 m) 8
      (Nat.le_refl 8) qx qy
    simp only [drawRows]
    constructor
    · rintro ⟨r, c, hr, hc, hx, hy, hb⟩
      by_cases e : r = m
      · subst e
        rw [on ⟨c, hc, hb, hx, hy⟩, ih2]
        rintro ⟨q, d, hq, _, _, hy', _⟩
        have := spriteRow_inj y0 r q (by omega) (by omega) (hy.symm.trans hy')
        omega
      · rw [off, ih1 ⟨r, c, by omega, hc, hx, hy, hb⟩]
        rintro ⟨d, _, _, _, hy'⟩
        exact e (spriteRow_inj y0 r m (by omega) (by omega) (hy.symm.trans hy'))
    · intro h
      rw [off fun ⟨c, hc, hb, hx, hy⟩ => h ⟨m, c, by omega, hc, hx, hy, hb⟩,
        ih2 fun ⟨r, c, hr, h'⟩ => h ⟨r, c, by omega, h'⟩]

/-- The collision flag after the first m rows of a draw: one of the pixels drawn on was on. -/
theorem collide_drawRows (s : State) (x0 y0 : Byte) (m : Nat) (hm : m < 16) :
    (drawRows s x0 y0 m).2 = true ↔ ∃ px py, DrawnOn s x0 y0 m px py ∧ pixel s.fb px py = true := by
  induction m with
  | zero =>
    simp only [drawRows, Bool.false_eq_true, false_iff]
    rintro ⟨_, _, ⟨r, _, hr, _⟩, _⟩
    exact Nat.not_lt_zero r hr
  | succ m ih =>
    have fresh : ∀ px, pixel (drawRows s x0 y0 m).1 px (spriteRow y0 m) = pixel s.fb px (spriteRow y0 m) := fun px =>
      (pixel_drawRows s x0 y0 m (by omega) px (spriteRow y0 m)).2 (by
        rintro ⟨q, _, hq, _, _, hy, _⟩
        have := spriteRow_inj y0 m q (by omega) (by omega) hy
        omega)
    simp only [drawRows]
    rw [collide_drawColumns _ _ _ _ 8 (Nat.le_refl 8), ih (by omega)]
    constructor
    · rintro (⟨px, py, ⟨r, c, hr, h'⟩, h⟩ | ⟨c, hc, hb, h⟩)
      · exact ⟨px, py, ⟨r, c, by omega, h'⟩, h⟩
      · exact ⟨_, _, ⟨m, c, by omega, hc, rfl, rfl, hb⟩, (fresh _).symm.trans h⟩
    · rintro ⟨px, py, ⟨r, c, hr, hc, hx, hy, hb⟩, h⟩
      by_cases e : r = m
      · subst e hx hy
        exact .inr ⟨c, hc, hb, (fresh _).trans h⟩
      · exact .inl ⟨px, py, ⟨r, c, by omega, hc, hx, hy, hb⟩, h⟩

/-- The pixels drawn on, by number, as R230 and R231 say them. -/
theorem drawnOn_iff (s : State) (x0 y0 : Byte) (m : Nat) (px : Fin 64) (py : Fin 32) :
    DrawnOn s x0 y0 m px py ↔ SpriteCovers s x0 y0 m px py := by
  have ha : ∀ r, s.dataAddr r = BitVec.ofNat 12 (s.i.toNat + r) := fun r => by
    apply BitVec.eq_of_toNat_eq
    simp
  simp only [DrawnOn, SpriteCovers, spriteColumn, spriteRow, spriteBit, Fin.ext_iff, Fin.val_ofNat, ha]

end Sys2Proof.Machine
end

