-- ==== Sys2Proof/Laws/Faults.lean ====
section
/-! SUPPORT. When an instruction faults and what it does then: the fault conditions of Sys2Proof/Safety.lean against the
meanings. -/

namespace Sys2Proof.Machine

/-- On its fault condition an instruction is fault entry with its own word (R401, R410). -/
theorem exec_of_fault (i : Instr) (s : State) (c : FaultCode) (h : faultOf i s = some c) :
    exec i s = .next (s.enterFault c (encode i)) := by
  cases i <;> simp only [faultOf] at h
  case call n => split at h <;> cases h; rename_i h1; simp [exec, execCall, push_full _ _ h1, raiseFault]
  case ret => split at h <;> cases h; rename_i h1; simp [exec, execRet, pop_empty _ h1, raiseFault]
  case skp x => split at h <;> cases h; rename_i h1; exact (skipOnKey_next _ _ _ _ _).2 (.inl ⟨h1, rfl⟩)
  case sknp x => split at h <;> cases h; rename_i h1; exact (skipOnKey_next _ _ _ _ _).2 (.inl ⟨h1, rfl⟩)
  case ldB x => split at h <;> cases h; rename_i h1; exact (storeAtI_next _ _ _ _).2 (.inl ⟨h1, rfl⟩)
  case ldMemVx x =>
    split at h <;> cases h
    exact (storeAtI_next _ _ _ _).2 (.inl ⟨by rw [length_regsUpTo]; assumption, rfl⟩)
  all_goals cases h

/-- Off its fault condition an instruction leaves FAULT alone (R407). -/
theorem exec_keeps_fault (i : Instr) (s t : State) (h : faultOf i s = none) (e : exec i s = .next t) :
    t.fault = s.fault := by
  cases i <;> simp only [faultOf] at h
  case call n =>
    split at h
    · cases h
    · have : s.sp.val < 16 := by
        have := s.sp.isLt
        omega
      simp only [exec, execCall, push_room _ _ this] at e
      cases e
      rfl
  case ret =>
    split at h
    · cases h
    · simp only [exec, execRet, pop_live _ (Nat.pos_of_ne_zero ‹_›)] at e
      cases e
      rfl
  case skp x =>
    split at h
    · cases h
    · rcases (skipOnKey_next _ _ _ _ _).1 e with ⟨h1, _⟩ | ⟨_, rfl⟩
      · omega
      · split <;> rfl
  case sknp x =>
    split at h
    · cases h
    · rcases (skipOnKey_next _ _ _ _ _).1 e with ⟨h1, _⟩ | ⟨_, rfl⟩
      · omega
      · split <;> rfl
  case ldB x =>
    split at h
    · cases h
    · rcases (storeAtI_next _ _ _ _).1 e with ⟨h1, _⟩ | ⟨_, rfl⟩
      · exact absurd h1 ‹_›
      · rw [storeBytes_eq]
  case ldMemVx x =>
    split at h
    · cases h
    · rcases (storeAtI_next _ _ _ _).1 e with ⟨h1, _⟩ | ⟨_, rfl⟩
      · rw [length_regsUpTo] at h1; exact absurd h1 ‹_›
      · rw [storeBytes_eq]
  case ldVxK x => simp only [exec, execLdVxK] at e; split at e <;> cases e <;> rfl
  case ldVxMem x => simp only [exec, execLdVxMem] at e; cases e; rw [loadRegs_eq]
  case seImm => simp only [exec, execSeImm, skipIf] at e; cases e; split <;> rfl
  case sneImm => simp only [exec, execSneImm, skipIf] at e; cases e; split <;> rfl
  case seReg => simp only [exec, execSeReg, skipIf] at e; cases e; split <;> rfl
  case sneReg => simp only [exec, execSneReg, skipIf] at e; cases e; split <;> rfl
  all_goals (cases e; rfl)

/-- The fault conditions do not depend on PC. -/
@[simp] theorem faultOf_advance (i : Instr) (s : State) : faultOf i s.advance = faultOf i s := by cases i <;> rfl

/-- The skip conditions do not depend on PC. -/
@[simp] theorem skipHolds_advance (i : Instr) (s : State) : skipHolds i s.advance = skipHolds i s := by cases i <;> rfl

/-- Fault entry in a step, by number: PC back at the instruction, FAULT set, nothing else changed (R410). -/
theorem advance_enterFault (s : State) (c : FaultCode) (w : Word) : s.advance.enterFault c w =
    { s with pc := BitVec.ofNat 16 (s.pc.toNat % 4096), fault := some ⟨c, toAddr s.pc, w⟩ } := by
  have h : ofAddr (toAddr s.pc) = BitVec.ofNat 16 (s.pc.toNat % 4096) := by
    rw [ofAddr_eq]
    simp
  simp only [State.enterFault, advance_instrAddr, h]
  rfl

end Sys2Proof.Machine
end

