-- ==== Sys2Proof/Laws/Effects.lean ====
section
/-! SUPPORT. What an instruction does where it completes, for all instructions in one table, and the inversion lemma of
`exec`: fault entry on the fault condition, that effect off it. Proofs over all instructions start from it. -/

namespace Sys2Proof.Machine

/-- The relation between the states before and after an instruction that completes, in the shared operations. -/
def Effect (i : Instr) (s t : State) : Prop :=
  match i with
  | .cls => t = s.setFb clearedFb
  | .ret => ∃ j : Fin 16, ∃ h : s.sp.val = j.val + 1,
      t = ({ s with sp := ⟨j.val, by omega⟩ } : State).setPc (toAddr s.stack[j])
  | .jp nnn => t = s.setPc nnn
  | .call nnn => ∃ j : Fin 16, ∃ h : s.sp.val = j.val,
      t = ({ s with stack := s.stack.set j s.pc, sp := ⟨j.val + 1, by omega⟩ } : State).setPc nnn
  | .seImm _ _ | .sneImm _ _ | .seReg _ _ | .sneReg _ _ | .skp _ | .sknp _ => t = if skipHolds i s then s.advance else s
  | .ldImm x kk => t = s.writeV x kk
  | .addImm x kk => t = s.writeV x (s.readV x + kk)
  | .ldReg x y => t = s.writeV x (s.readV y)
  | .or x y => t = s.writeV x (s.readV x ||| s.readV y)
  | .and x y => t = s.writeV x (s.readV x &&& s.readV y)
  | .xor x y => t = s.writeV x (s.readV x ^^^ s.readV y)
  | .addReg x y => t = s.writeFlagged x (s.readV x + s.readV y) (carryOut (s.readV x) (s.readV y))
  | .sub x y => t = s.writeFlagged x (s.readV x - s.readV y) (noBorrow (s.readV x) (s.readV y))
  | .shr x => t = s.writeFlagged x (s.readV x >>> 1) (bitOutRight (s.readV x))
  | .subn x y => t = s.writeFlagged x (s.readV y - s.readV x) (noBorrow (s.readV y) (s.readV x))
  | .shl x => t = s.writeFlagged x (s.readV x <<< 1) (bitOutLeft (s.readV x))
  | .ldI nnn => t = s.setI nnn
  | .jpV0 nnn => t = s.setPc (s.offsetTarget nnn)
  | .rnd x kk => t = randomInto x kk s.drawRandom
  | .drw x y n => t = finishDraw s (drawRows s (s.readV x) (s.readV y) n.toNat)
  | .ldVxDt x => t = s.writeV x s.dt
  | .ldVxK x => (s.waitKeys = 0 ∧ t = s.keepWaiting) ∨
      (s.waitKeys ≠ 0 ∧ t = (s.writeV x (BitVec.ofNat 8 (selectKey s.cfg s.waitKeys).val)).endWait)
  | .ldDtVx x => t = s.setDt (s.readV x)
  | .ldStVx x => t = s.setSt (s.readV x)
  | .addI x => t = s.setI (s.indexSum x)
  | .ldF x => t = s.setI (glyphAddr s.cfg (s.readV x))
  | .ldB x => t = s.storeBytes (s.dataAddr 0) (bcdDigits (s.readV x))
  | .ldMemVx x => t = s.storeBytes (s.dataAddr 0) (s.regsUpTo x)
  | .ldVxMem x => t = s.loadRegs (x.val + 1)

/-- Off its fault condition, an instruction has its effect. -/
theorem exec_effect (i : Instr) (s t : State) (hf : faultOf i s = none) (e : exec i s = .next t) : Effect i s t := by
  cases i <;> simp only [faultOf] at hf
  case call n =>
    split at hf
    · cases hf
    · have h : s.sp.val < 16 := by
        have := s.sp.isLt
        omega
      simp only [exec, execCall, push_room _ _ h] at e
      cases e
      exact ⟨⟨s.sp.val, h⟩, rfl, rfl⟩
  case ret =>
    split at hf
    · cases hf
    · have h : 0 < s.sp.val := Nat.pos_of_ne_zero ‹_›
      have := s.sp.isLt
      simp only [exec, execRet, pop_live _ h] at e
      cases e
      exact ⟨⟨s.sp.val - 1, by omega⟩, by simp; omega, rfl⟩
  case skp x =>
    rcases (skipOnKey_next _ _ _ _ _).1 e with ⟨h, _⟩ | ⟨_, rfl⟩
    · simp [h] at hf
    · simp only [Effect, skipHolds, State.keyDown]
      congr
  case sknp x =>
    rcases (skipOnKey_next _ _ _ _ _).1 e with ⟨h, _⟩ | ⟨_, rfl⟩
    · simp [h] at hf
    · simp only [Effect, skipHolds, State.keyDown]
      by_cases hk : s.key.getLsbD (s.readV x).toNat = true <;> simp [hk]
  case ldB x =>
    rcases (storeAtI_next _ _ _ _).1 e with ⟨h, _⟩ | ⟨_, rfl⟩
    · rw [length_bcdDigits] at h
      rw [if_pos h] at hf
      cases hf
    · rfl
  case ldMemVx x =>
    rcases (storeAtI_next _ _ _ _).1 e with ⟨h, _⟩ | ⟨_, rfl⟩
    · rw [length_regsUpTo] at h
      rw [if_pos h] at hf
      cases hf
    · rfl
  case ldVxK x =>
    simp only [exec, execLdVxK] at e
    split at e <;> cases e
    · exact .inl ⟨‹_›, rfl⟩
    · exact .inr ⟨‹_›, rfl⟩
  case seImm => cases e; simp [Effect, skipHolds]
  case sneImm => cases e; simp [Effect, skipHolds]
  case seReg => cases e; simp [Effect, skipHolds]
  case sneReg => cases e; simp [Effect, skipHolds]
  all_goals (cases e; rfl)

/-- Everything an instruction can do: fault entry with its own word on its fault condition, its effect off it. -/
theorem exec_cases (i : Instr) (s t : State) (e : exec i s = .next t) :
    (∃ c, faultOf i s = some c ∧ t = s.enterFault c (encode i)) ∨ (faultOf i s = none ∧ Effect i s t) := by
  cases h : faultOf i s with
  | none => exact .inr ⟨rfl, exec_effect i s t h e⟩
  | some c =>
    rw [exec_of_fault i s c h] at e
    cases e
    exact .inl ⟨c, rfl, rfl⟩

end Sys2Proof.Machine
end

