-- ==== Sys2Proof/Laws/PerInstr.lean ====
section
/-! SUPPORT. A statement about every instruction as syntax: its word is in its row of spec/opcode_table.json. -/

namespace Sys2Proof

/-- The match and mask of an instruction's row of spec/opcode_table.json. -/
def tableRow : Instr → Word × Word
  | .cls => (0x00E0, 0xFFFF)
  | .ret => (0x00EE, 0xFFFF)
  | .jp _ => (0x1000, 0xF000)
  | .call _ => (0x2000, 0xF000)
  | .seImm _ _ => (0x3000, 0xF000)
  | .sneImm _ _ => (0x4000, 0xF000)
  | .seReg _ _ => (0x5000, 0xF00F)
  | .ldImm _ _ => (0x6000, 0xF000)
  | .addImm _ _ => (0x7000, 0xF000)
  | .ldReg _ _ => (0x8000, 0xF00F)
  | .or _ _ => (0x8001, 0xF00F)
  | .and _ _ => (0x8002, 0xF00F)
  | .xor _ _ => (0x8003, 0xF00F)
  | .addReg _ _ => (0x8004, 0xF00F)
  | .sub _ _ => (0x8005, 0xF00F)
  | .shr _ => (0x8006, 0xF00F)
  | .subn _ _ => (0x8007, 0xF00F)
  | .shl _ => (0x800E, 0xF00F)
  | .sneReg _ _ => (0x9000, 0xF00F)
  | .ldI _ => (0xA000, 0xF000)
  | .jpV0 _ => (0xB000, 0xF000)
  | .rnd _ _ => (0xC000, 0xF000)
  | .drw _ _ _ => (0xD000, 0xF000)
  | .skp _ => (0xE09E, 0xF0FF)
  | .sknp _ => (0xE0A1, 0xF0FF)
  | .ldVxDt _ => (0xF007, 0xF0FF)
  | .ldVxK _ => (0xF00A, 0xF0FF)
  | .ldDtVx _ => (0xF015, 0xF0FF)
  | .ldStVx _ => (0xF018, 0xF0FF)
  | .addI _ => (0xF01E, 0xF0FF)
  | .ldF _ => (0xF029, 0xF0FF)
  | .ldB _ => (0xF033, 0xF0FF)
  | .ldMemVx _ => (0xF055, 0xF0FF)
  | .ldVxMem _ => (0xF065, 0xF0FF)

/-- The fixed bits of the row, read by field: the word has the row's match under the row's mask. -/
def Laws.TableRow.Statement (i : Instr) : Prop := encode i &&& (tableRow i).2 = (tableRow i).1

theorem encNNN_mask (op : BitVec 4) (nnn : Addr) : encNNN op nnn &&& 0xF000 = encNNN op 0 := by
  apply BitVec.eq_of_getLsbD_eq
  intro i hi
  simp only [BitVec.getLsbD_and, getLsbD_encNNN]
  interval_cases i <;> simp

theorem encXKK_mask (op : BitVec 4) (x : Reg) (kk : Byte) : encXKK op x kk &&& 0xF000 = encNNN op 0 := by
  apply BitVec.eq_of_getLsbD_eq
  intro i hi
  simp only [BitVec.getLsbD_and, getLsbD_encXKK, getLsbD_encNNN, regBits]
  interval_cases i <;> simp

theorem encXSS_mask (op : BitVec 4) (x : Reg) (kk : Byte) : encXKK op x kk &&& 0xF0FF = encXKK op 0 kk := by
  apply BitVec.eq_of_getLsbD_eq
  intro i hi
  simp only [BitVec.getLsbD_and, getLsbD_encXKK, regBits]
  interval_cases i <;> simp

theorem encXYS_mask (op : BitVec 4) (x y : Reg) (n : BitVec 4) :
    encXYN op x y n &&& 0xF00F = encXYN op 0 0 n := by
  apply BitVec.eq_of_getLsbD_eq
  intro i hi
  simp only [BitVec.getLsbD_and, getLsbD_encXYN, regBits]
  interval_cases i <;> simp

theorem encXYN_mask (op : BitVec 4) (x y : Reg) (n : BitVec 4) : encXYN op x y n &&& 0xF000 = encNNN op 0 := by
  apply BitVec.eq_of_getLsbD_eq
  intro i hi
  simp only [BitVec.getLsbD_and, getLsbD_encXYN, getLsbD_encNNN, regBits]
  interval_cases i <;> simp

namespace Laws.TableRow

theorem cls : Statement (.cls) := rfl

theorem ret : Statement (.ret) := rfl

theorem jp (nnn : Addr) : Statement (.jp nnn) := encNNN_mask _ _

theorem call (nnn : Addr) : Statement (.call nnn) := encNNN_mask _ _

theorem seImm (x : Reg) (kk : Byte) : Statement (.seImm x kk) := encXKK_mask _ _ _

theorem sneImm (x : Reg) (kk : Byte) : Statement (.sneImm x kk) := encXKK_mask _ _ _

theorem seReg (x y : Reg) : Statement (.seReg x y) := encXYS_mask _ _ _ _

theorem ldImm (x : Reg) (kk : Byte) : Statement (.ldImm x kk) := encXKK_mask _ _ _

theorem addImm (x : Reg) (kk : Byte) : Statement (.addImm x kk) := encXKK_mask _ _ _

theorem ldReg (x y : Reg) : Statement (.ldReg x y) := encXYS_mask _ _ _ _

theorem or (x y : Reg) : Statement (.or x y) := encXYS_mask _ _ _ _

theorem and (x y : Reg) : Statement (.and x y) := encXYS_mask _ _ _ _

theorem xor (x y : Reg) : Statement (.xor x y) := encXYS_mask _ _ _ _

theorem addReg (x y : Reg) : Statement (.addReg x y) := encXYS_mask _ _ _ _

theorem sub (x y : Reg) : Statement (.sub x y) := encXYS_mask _ _ _ _

theorem shr (x : Reg) : Statement (.shr x) := encXYS_mask _ _ _ _

theorem subn (x y : Reg) : Statement (.subn x y) := encXYS_mask _ _ _ _

theorem shl (x : Reg) : Statement (.shl x) := encXYS_mask _ _ _ _

theorem sneReg (x y : Reg) : Statement (.sneReg x y) := encXYS_mask _ _ _ _

theorem ldI (nnn : Addr) : Statement (.ldI nnn) := encNNN_mask _ _

theorem jpV0 (nnn : Addr) : Statement (.jpV0 nnn) := encNNN_mask _ _

theorem rnd (x : Reg) (kk : Byte) : Statement (.rnd x kk) := encXKK_mask _ _ _

theorem drw (x y : Reg) (n : BitVec 4) : Statement (.drw x y n) := encXYN_mask _ _ _ _

theorem skp (x : Reg) : Statement (.skp x) := encXSS_mask _ _ _

theorem sknp (x : Reg) : Statement (.sknp x) := encXSS_mask _ _ _

theorem ldVxDt (x : Reg) : Statement (.ldVxDt x) := encXSS_mask _ _ _

theorem ldVxK (x : Reg) : Statement (.ldVxK x) := encXSS_mask _ _ _

theorem ldDtVx (x : Reg) : Statement (.ldDtVx x) := encXSS_mask _ _ _

theorem ldStVx (x : Reg) : Statement (.ldStVx x) := encXSS_mask _ _ _

theorem addI (x : Reg) : Statement (.addI x) := encXSS_mask _ _ _

theorem ldF (x : Reg) : Statement (.ldF x) := encXSS_mask _ _ _

theorem ldB (x : Reg) : Statement (.ldB x) := encXSS_mask _ _ _

theorem ldMemVx (x : Reg) : Statement (.ldMemVx x) := encXSS_mask _ _ _

theorem ldVxMem (x : Reg) : Statement (.ldVxMem x) := encXSS_mask _ _ _

end Laws.TableRow

end Sys2Proof
end

