-- ==== Sys2Proof/Tests/Slice0.lean ====
section
/-! SUPPORT. Tests: the checks refuse ill-formed terms; every constructor decodes from a word written out from R91 and R98;
vectors of spec/95_test_vectors.md, one step each; and states that meet the hypotheses of the obligations. -/

open Sys2Proof Sys2Proof.Machine

namespace Sys2Proof.Tests

/-! ### The checks -/

/-- FONT_BASE = 0x1B1 puts the table past 0x1FF (R8, R71). -/
theorem test_check_refuses_font_past_reserved_range :
    Config.wf { defaultConfig with fontBase := 0x1B1 } = false ∧ Config.wf { defaultConfig with fontBase := 0x1B0 } = true := by
  decide

/-- FONT_DATA must begin with glyph 0 (R72). -/
theorem test_check_refuses_another_glyph_zero :
    Config.wf { defaultConfig with fontData := defaultFontData.set 1 0x80 } = false ∧ Config.wf defaultConfig = true := by
  decide

/-- R106: registers are V0 to VF, nnn at most 0xFFF, kk at most 0xFF, n at most 0xF, and operands as the table has them. -/
theorem test_check_refuses_ill_formed_lines :
    Line.check ⟨.add, [.v 16, .v 0]⟩ = .error .register ∧ Line.check ⟨.jp, [.num 0x1000]⟩ = .error .address ∧
    Line.check ⟨.ld, [.v 1, .num 0x100]⟩ = .error .immediate ∧ Line.check ⟨.drw, [.v 1, .v 2, .num 16]⟩ = .error .height ∧
    Line.check ⟨.cls, [.v 0]⟩ = .error .shape ∧ Line.check ⟨.jp, [.v 1, .num 0x206]⟩ = .error .shape ∧
    Line.wf ⟨.call, [.num 0x1000]⟩ = false := by
  decide

/-- The listing of P7 in spec/95_test_vectors.md: `JP V0, 0x206` is B206, `LD V1, 0x02` is 6102. -/
theorem test_assemble_listing :
    Line.assemble ⟨.jp, [.v 0, .num 0x206]⟩ = .ok 0xB206 ∧ Line.assemble ⟨.ld, [.v 1, .num 2]⟩ = .ok 0x6102 ∧
    Line.assemble ⟨.shr, [.v 1, .v 2]⟩ = .ok 0x8126 ∧ Line.assemble ⟨.shr, [.v 1]⟩ = .ok 0x8106 := by
  decide

/-- R106: a label means its address, ORG sets the next address, DB places bytes. -/
theorem test_assemble_program :
    (assemble [.jump .jp [] 7, .db [0xF0], .label 7, .line ⟨.cls, []⟩, .org 0x300, .line ⟨.ret, []⟩]).toOption =
      some [(0x200, [0x12, 0x03]), (0x202, [0xF0]), (0x203, []), (0x203, [0x00, 0xE0]), (0x205, []), (0x300, [0x00, 0xEE])] := by
  decide

/-! ### Decode: one word for every constructor, from the layouts of R91 and the table of R98 -/

theorem test_decode_control :
    decode 0x00E0 = .ok .cls ∧ decode 0x00EE = .ok .ret ∧ decode 0x1234 = .ok (.jp 0x234) ∧
    decode 0x2300 = .ok (.call 0x300) ∧ decode 0x3A05 = .ok (.seImm 0xA 0x05) ∧ decode 0x4A05 = .ok (.sneImm 0xA 0x05) ∧
    decode 0x5120 = .ok (.seReg 1 2) ∧ decode 0x9120 = .ok (.sneReg 1 2) := by
  decide

theorem test_decode_alu :
    decode 0x6A42 = .ok (.ldImm 0xA 0x42) ∧ decode 0x7F01 = .ok (.addImm 0xF 0x01) ∧ decode 0x8120 = .ok (.ldReg 1 2) ∧
    decode 0x8121 = .ok (.or 1 2) ∧ decode 0x8122 = .ok (.and 1 2) ∧ decode 0x8123 = .ok (.xor 1 2) ∧
    decode 0x8124 = .ok (.addReg 1 2) ∧ decode 0x81F5 = .ok (.sub 1 0xF) ∧ decode 0x8F06 = .ok (.shr 0xF) ∧
    decode 0x8127 = .ok (.subn 1 2) ∧ decode 0x812E = .ok (.shl 1) := by
  decide

theorem test_decode_index_jump_random_draw :
    decode 0xA2F0 = .ok (.ldI 0x2F0) ∧ decode 0xBFFF = .ok (.jpV0 0xFFF) ∧ decode 0xC30F = .ok (.rnd 3 0x0F) ∧
    decode 0xD125 = .ok (.drw 1 2 5) ∧ decode 0xDF10 = .ok (.drw 0xF 1 0) := by
  decide

theorem test_decode_keys_misc :
    decode 0xE59E = .ok (.skp 5) ∧ decode 0xE5A1 = .ok (.sknp 5) ∧ decode 0xF207 = .ok (.ldVxDt 2) ∧
    decode 0xF20A = .ok (.ldVxK 2) ∧ decode 0xF115 = .ok (.ldDtVx 1) ∧ decode 0xF118 = .ok (.ldStVx 1) ∧
    decode 0xF21E = .ok (.addI 2) ∧ decode 0xF429 = .ok (.ldF 4) ∧ decode 0xF533 = .ok (.ldB 5) ∧
    decode 0xFF55 = .ok (.ldMemVx 0xF) ∧ decode 0xF265 = .ok (.ldVxMem 2) := by
  decide

/-- D-1, D-3 to D-8: illegal words, each refused under the name of its group; and bytes that are no whole word (R90). -/
theorem test_decode_refuses_illegal_words :
    decode 0x0000 = .error .group0 ∧ decode 0x0123 = .error .group0 ∧ decode 0x5121 = .error .group5 ∧
    decode 0x9121 = .error .group9 ∧ decode 0x8128 = .error .group8 ∧ decode 0x812F = .error .group8 ∧
    decode 0xE19F = .error .groupE ∧ decode 0xF1FF = .error .groupF ∧ decodeBytes [0x12] = .error .tooShort ∧
    decodeBytes [0x12, 0x34, 0x56] = .ok (.jp 0x234, [0x56]) := by
  decide

/-- The host's two questions: the word of a table row decodes, and it is what the next step runs (C-8, 0x1234 at 0x200). -/
theorem test_table_word : decodeTableWord 16 0x1234 = some (.jp 0x234) ∧
    (after (State.reset.withFetchWord 16 0x1234)).pc = 0x234 := by
  decide

/-! ### One step each -/

/-- One step of the word `w` placed at PC. -/
def run (w : Nat) (s : State) : State := after (s.withFetchWord 16 w)

/-- The status of that step. -/
def runStatus (w : Nat) (s : State) : Status := stepStatus (s.withFetchWord 16 w)

/-- Reset with some registers set. -/
def withRegs (rs : List (Reg × Byte)) : State := rs.foldl (fun s p => s.writeV p.1 p.2) State.reset

/-- Reset with the font at 0x050. -/
def fontAt50 : State := State.resetWith { defaultConfig with fontBase := 0x050 }

/-- D-1 and D-2: the empty program area faults on its first word, and then nothing changes. -/
theorem test_empty_memory_faults :
    (after State.reset).pc = 0x200 ∧ (after State.reset).fault = some ⟨.illegalOpcode, 0x200, 0x0000⟩ ∧
    stepStatus State.reset = .faulted ∧ after (after State.reset) = after State.reset ∧
    stepStatus (after State.reset) = .faulted := by
  decide

/-- D-9: a fetch at 0xFFF takes its second byte from 0x000. -/
theorem test_fetch_wraps :
    (after ((({ State.reset with pc := 0xFFF } : State).memWrite 0xFFF 0x12).memWrite 0x000 0x34)).pc = 0x234 := by
  decide

/-- C-1. -/
theorem test_cls : let t := run 0x00E0 { State.reset with fb := setPixel (setPixel clearedFb 5 3 true) 63 31 true }
    pixel t.fb 5 3 = false ∧ pixel t.fb 63 31 = false ∧ t.pc = 0x202 := by
  decide

/-- C-3. -/
theorem test_ret : let t := run 0x00EE { State.reset with sp := 1, stack := State.reset.stack.set 0 0x202, pc := 0x300 }
    t.sp = 0 ∧ t.pc = 0x202 := by
  decide

/-- C-4. -/
theorem test_ret_underflow : let t := run 0x00EE State.reset
    t.pc = 0x200 ∧ t.sp = 0 ∧ t.fault = some ⟨.stackUnderflow, 0x200, 0x00EE⟩ := by
  decide

/-- C-9: an odd target is legal. -/
theorem test_jp_odd : (run 0x1201 State.reset).pc = 0x201 ∧ runStatus 0x1201 State.reset = .ok := by decide

/-- C-6 and C-7: the 16th call succeeds; a call at 0xFFE pushes 0x000. -/
theorem test_call : (let t := run 0x2300 { State.reset with sp := 15 };
    t.stack[15] = 0x202 ∧ t.sp = 16 ∧ t.pc = 0x300) ∧ (run 0x2300 { State.reset with pc := 0xFFE }).stack[0] = 0x000 := by
  decide

/-- C-5. -/
theorem test_call_overflow : let t := run 0x2300 { State.reset with sp := 16 }
    t.pc = 0x200 ∧ t.sp = 16 ∧ t.stack = State.reset.stack ∧ t.fault = some ⟨.stackOverflow, 0x200, 0x2300⟩ := by
  decide

/-- C-10 and C-11. -/
theorem test_se_imm : (run 0x3A05 (withRegs [(0xA, 0x05)])).pc = 0x204 ∧ (run 0x3A05 (withRegs [(0xA, 0x06)])).pc = 0x202 := by
  decide

/-- C-19: the advance and the skip wrap. -/
theorem test_se_imm_wraps : (run 0x3000 { State.reset with pc := 0xFFE }).pc = 0x002 := by decide

/-- C-12 and C-13. -/
theorem test_sne_imm : (run 0x4A05 (withRegs [(0xA, 0x06)])).pc = 0x204 ∧ (run 0x4A05 (withRegs [(0xA, 0x05)])).pc = 0x202 := by
  decide

/-- C-14 and C-15. -/
theorem test_se_reg : (run 0x5120 (withRegs [(1, 0x33), (2, 0x33)])).pc = 0x204 ∧
    (run 0x5120 (withRegs [(1, 0x33), (2, 0x34)])).pc = 0x202 := by
  decide

/-- C-17 and C-18. -/
theorem test_sne_reg : (run 0x9120 (withRegs [(1, 0x33), (2, 0x34)])).pc = 0x204 ∧
    (run 0x9110 (withRegs [(1, 0x33)])).pc = 0x202 := by
  decide

/-- A-1. -/
theorem test_ld_imm : let t := run 0x6A42 (withRegs [(vF, 0x55)])
    t.readV 0xA = 0x42 ∧ t.readV vF = 0x55 := by
  decide

/-- A-2: the sum wraps without a flag. -/
theorem test_add_imm : let t := run 0x7A10 (withRegs [(0xA, 0xF8), (vF, 0x55)])
    t.readV 0xA = 0x08 ∧ t.readV vF = 0x55 := by
  decide

/-- A-3: VF as an ordinary destination. -/
theorem test_add_imm_vf : (run 0x7F01 (withRegs [(vF, 0xFF)])).readV vF = 0x00 := by decide

/-- A-4. -/
theorem test_ld_reg : let t := run 0x8120 (withRegs [(2, 0x7F), (vF, 0x55)])
    t.readV 1 = 0x7F ∧ t.readV 2 = 0x7F ∧ t.readV vF = 0x55 := by
  decide

/-- A-33: VF is not reset. -/
theorem test_or : let t := run 0x8121 (withRegs [(1, 0x01), (2, 0x02), (vF, 0x77)])
    t.readV 1 = 0x03 ∧ t.readV vF = 0x77 := by
  decide

/-- A-6. -/
theorem test_and : (run 0x8122 (withRegs [(1, 0x3C), (2, 0x0F)])).readV 1 = 0x0C := by decide

/-- A-7. -/
theorem test_xor : (run 0x8123 (withRegs [(1, 0xFF), (2, 0x0F)])).readV 1 = 0xF0 := by decide

/-- A-9. -/
theorem test_add_reg : let t := run 0x8124 (withRegs [(1, 0xFA), (2, 0x0A), (vF, 0x55)])
    t.readV 1 = 0x04 ∧ t.readV vF = 0x01 := by
  decide

/-- A-28: with x = F the flag is what VF keeps. -/
theorem test_add_reg_vf : (run 0x8F14 (withRegs [(vF, 0xFA), (1, 0x0A)])).readV vF = 0x01 := by decide

/-- A-14. -/
theorem test_sub : let t := run 0x8125 (withRegs [(1, 0x05), (2, 0x07), (vF, 0x55)])
    t.readV 1 = 0xFE ∧ t.readV vF = 0x00 := by
  decide

/-- A-30: with y = F the operand is the old VF. -/
theorem test_sub_vf : let t := run 0x81F5 (withRegs [(1, 0x05), (vF, 0x03)])
    t.readV 1 = 0x02 ∧ t.readV vF = 0x01 := by
  decide

/-- A-19: the y field is ignored. -/
theorem test_shr : let t := run 0x8126 (withRegs [(1, 0x05), (2, 0xFE)])
    t.readV 1 = 0x02 ∧ t.readV 2 = 0xFE ∧ t.readV vF = 0x01 := by
  decide

/-- A-31. -/
theorem test_shr_vf : (run 0x8F06 (withRegs [(vF, 0x03)])).readV vF = 0x01 := by decide

/-- A-22. -/
theorem test_subn : let t := run 0x8127 (withRegs [(1, 0x05), (2, 0x07)])
    t.readV 1 = 0x02 ∧ t.readV vF = 0x01 := by
  decide

/-- A-23. -/
theorem test_subn_borrow : let t := run 0x8127 (withRegs [(1, 0x07), (2, 0x05), (vF, 0x55)])
    t.readV 1 = 0xFE ∧ t.readV vF = 0x00 := by
  decide

/-- A-25. -/
theorem test_shl : let t := run 0x812E (withRegs [(1, 0x81)])
    t.readV 1 = 0x02 ∧ t.readV vF = 0x01 := by
  decide

/-- A-32. -/
theorem test_shl_vf : (run 0x8FFE (withRegs [(vF, 0x02)])).readV vF = 0x00 := by decide

/-- X-2. -/
theorem test_ld_i : (run 0xAFFF State.reset).i = 0xFFF ∧ (run 0xAFFF State.reset).pc = 0x202 := by decide

/-- X-3 and X-4. -/
theorem test_jp_v0 : (run 0xB300 (withRegs [(0, 0x04)])).pc = 0x304 ∧ (run 0xBFFF (withRegs [(0, 0x02)])).pc = 0x001 := by
  decide

/-- X-7: for every draw. -/
theorem test_rnd_mask_zero : (run 0xC300 (withRegs [(3, 0x99)])).readV 3 = 0x00 := by
  have : ∀ b : Byte, b &&& 0x00 = 0x00 := by decide
  exact this _

/-- X-6: for the draw 0xA7. -/
theorem test_rnd_draw : (randomInto 3 0x0F (0xA7, State.reset)).readV 3 = 0x07 := by decide

/-- G-7: pixels that were on go off and are a collision. -/
theorem test_drw_collision :
    let t := run 0xD121 ({ State.reset with i := 0x300, fb := setPixel (setPixel clearedFb 0 0 true) 3 0 true }.memWrite 0x300 0xFF)
    (List.finRange 64).filter (fun px => pixel t.fb px 0) = [1, 2, 4, 5, 6, 7] ∧ t.readV vF = 1 ∧ t.i = 0x300 := by
  decide

/-- G-3: a sprite across the corner wraps on both axes; and its I wraps in G-8. -/
theorem test_drw_wraps :
    let t := run 0xD125 (withRegs [(1, 62), (2, 30)])
    (List.finRange 64).filter (fun px => pixel t.fb px 30) = [0, 1, 62, 63] ∧
    (List.finRange 64).filter (fun px => pixel t.fb px 0) = [1, 62] ∧
    (List.finRange 64).filter (fun px => pixel t.fb px 2) = [0, 1, 62, 63] ∧ t.readV vF = 0 := by
  decide

/-- The sprite 0x80 drawn twice on one pixel that is on: the first draw turns it off, a collision; the second only turns it on,
which R235 and R237 make no collision (log entry 12). -/
theorem test_drw_twice :
    let s := { State.reset with i := 0x300, fb := setPixel clearedFb 0 0 true }.memWrite 0x300 0x80
    let t := run 0xD121 s
    let u := run 0xD121 { s with fb := t.fb }
    pixel t.fb 0 0 = false ∧ t.readV vF = 1 ∧ pixel u.fb 0 0 = true ∧ u.readV vF = 0 := by
  decide

/-- K-1 and K-2. -/
theorem test_skp : (run 0xE59E { withRegs [(5, 0x0A)] with key := 0x0400 }).pc = 0x204 ∧
    (run 0xE59E (withRegs [(5, 0x0A)])).pc = 0x202 := by
  decide

/-- K-5. -/
theorem test_skp_range : let t := run 0xE59E (withRegs [(5, 0x10)])
    t.pc = 0x200 ∧ t.fault = some ⟨.keyRange, 0x200, 0xE59E⟩ := by
  decide

/-- K-3 and K-4. -/
theorem test_sknp : (run 0xE5A1 (withRegs [(5, 0x0A)])).pc = 0x204 ∧
    (run 0xE5A1 { withRegs [(5, 0x0A)] with key := 0x0400 }).pc = 0x202 := by
  decide

/-- K-6. -/
theorem test_sknp_range : let t := run 0xE5A1 (withRegs [(5, 0xFF)])
    t.pc = 0x200 ∧ t.fault = some ⟨.keyRange, 0x200, 0xE5A1⟩ := by
  decide

/-- F-1. -/
theorem test_ld_vx_dt : (run 0xF207 { State.reset with dt := 0x3C }).readV 2 = 0x3C := by decide

/-- F-2 and F-3: pending with no key down; the lowest of two keys under `level`. -/
theorem test_ld_vx_k_level :
    (let t := run 0xF20A (withRegs [(2, 0x99)]);
      t.pc = 0x200 ∧ t.awaiting = true ∧ t.readV 2 = 0x99 ∧ runStatus 0xF20A (withRegs [(2, 0x99)]) = .pending) ∧
    (let t := run 0xF20A { State.reset with key := 0x0210 };
      t.pc = 0x202 ∧ t.awaiting = false ∧ t.readV 2 = 0x04 ∧ runStatus 0xF20A { State.reset with key := 0x0210 } = .ok) := by
  decide

/-- Reset under KEYWAIT_TRIGGER = `edge`. -/
def edge : State := State.resetWith { defaultConfig with keywaitTrigger := .edge }

/-- F-4 and F-5: under `edge` the first attempt never succeeds; a key that went down since the last attempt does. -/
theorem test_ld_vx_k_edge :
    (let t := run 0xF20A { edge with key := 0x0008 };
      t.pc = 0x200 ∧ t.awaiting = true ∧ t.kwPrev = 0x0008) ∧
    (let t := run 0xF20A { edge with key := 0x0028, kwPrev := 0x0008, awaiting := true };
      t.pc = 0x202 ∧ t.awaiting = false ∧ t.readV 2 = 0x05) := by
  decide

/-- KEYWAIT_SELECT that takes key 9 of the keys 4 and 9, and names key 2 for the keys 5 and 7, of which it is none. -/
def nineFirst : State := State.resetWith { defaultConfig with keywaitSelect := [(0x0210, 9), (0x00A0, 2)] }

/-- R8 and R14: the key the parameter gives the set; the lowest where it gives none of the set (log entry 2). -/
theorem test_ld_vx_k_select : (run 0xF20A { nineFirst with key := 0x0210 }).readV 2 = 0x09 ∧
    (run 0xF20A { nineFirst with key := 0x00A0 }).readV 2 = 0x05 ∧ (run 0xF20A { nineFirst with key := 0x8210 }).readV 2 = 0x04 := by
  decide

/-- F-7. -/
theorem test_ld_dt_vx : (run 0xF115 (withRegs [(1, 0x3C)])).dt = 0x3C := by decide

/-- F-8. -/
theorem test_ld_st_vx : (run 0xF118 (withRegs [(1, 0x02)])).st = 0x02 := by decide

/-- F-10 and F-11. -/
theorem test_add_i : (run 0xF21E { withRegs [(2, 0x01), (vF, 0x55)] with i := 0xFFF }).i = 0x000 ∧
    (run 0xF21E { withRegs [(2, 0xFF)] with i := 0xFF0 }).i = 0x0EF ∧
    (run 0xF21E { withRegs [(2, 0x01), (vF, 0x55)] with i := 0xFFF }).readV vF = 0x55 := by
  decide

/-- F-12 and F-13: only the low nibble counts, and the table moves with FONT_BASE. -/
theorem test_ld_f : (run 0xF429 (withRegs [(4, 0x1A)])).i = 0x032 ∧ (run 0xF429 (fontAt50.writeV 4 0x0A)).i = 0x082 := by decide

/-- F-14. -/
theorem test_ld_b : let t := run 0xF533 { withRegs [(5, 156)] with i := 0x300 }
    t.memRead 0x300 = 1 ∧ t.memRead 0x301 = 5 ∧ t.memRead 0x302 = 6 ∧ t.i = 0x300 := by
  decide

/-- F-16: the third byte wraps into the font table. -/
theorem test_ld_b_font : let t := run 0xF533 { withRegs [(5, 255)] with i := 0xFFE }
    t.pc = 0x200 ∧ t.fault = some ⟨.fontWrite, 0x200, 0xF533⟩ ∧ t.memRead 0xFFE = 0 ∧ t.memRead 0x000 = 0xF0 := by
  decide

/-- F-25: with the font elsewhere the store wraps. -/
theorem test_ld_mem_vx : let t := run 0xF155 { (fontAt50.writeV 0 0xAA).writeV 1 0xBB with i := 0xFFF }
    t.memRead 0xFFF = 0xAA ∧ t.memRead 0x000 = 0xBB ∧ t.i = 0xFFF ∧ t.fault = none := by
  decide

/-- F-19 and F-20: 0x04F is the last byte of the font table. -/
theorem test_ld_mem_vx_font : (run 0xF055 { withRegs [(0, 0x01)] with i := 0x04F }).fault = some ⟨.fontWrite, 0x200, 0xF055⟩ ∧
    (run 0xF055 { withRegs [(0, 0x01)] with i := 0x050 }).memRead 0x050 = 0x01 := by
  decide

/-- F-23: V0 to V2 and no other register. -/
theorem test_ld_vx_mem : let t := run 0xF265 ({ withRegs [(3, 0x99)] with i := 0x300 }.storeBytes 0x300 [0x11, 0x22, 0x33, 0x44])
    t.readV 0 = 0x11 ∧ t.readV 1 = 0x22 ∧ t.readV 2 = 0x33 ∧ t.readV 3 = 0x99 ∧ t.i = 0x300 := by
  decide

/-- F-24: the font table may be read. -/
theorem test_ld_vx_mem_font : (let t := run 0xF465 State.reset;
    [t.readV 0, t.readV 1, t.readV 2, t.readV 3, t.readV 4]) = [0xF0, 0x90, 0x90, 0x90, 0xF0] := by
  decide

/-- H-1 and H-2: a tick at 0 stays at 0. -/
theorem test_tick : (tick { State.reset with dt := 2 }).dt = 1 ∧ (tick { State.reset with dt := 2 }).st = 0 ∧
    (tick (tick { State.reset with dt := 1 })).dt = 0 := by
  decide

/-- H-3 and H-4. -/
theorem test_host_key_and_pixel : isKeyDown (setKey 7 true State.reset) 7 = true ∧
    isKeyDown (setKey 7 false (setKey 7 true State.reset)) 7 = false ∧
    pixelAt { State.reset with fb := setPixel clearedFb 5 3 true } 5 3 = true := by
  decide

/-! ### States and operands that meet the hypotheses of the obligations, clause by clause -/

/-- A state in the middle of a run: registers, a stack entry, keys, timers, memory and pixels that are not those of reset. -/
def busy : State := { State.reset.storeBytes 0x200 [0x81, 0x24, 0xF3, 0x0A] with
  v := Vector.ofFn fun k => BitVec.ofNat 8 (17 * k.val)
  i := 0x300
  stack := State.reset.stack.set 0 0x20A
  sp := 1
  dt := 9
  st := 3
  fb := setPixel clearedFb 5 3 true
  key := 0x0210
  draws := 4 }

theorem test_busy_inv : busy.Inv :=
  ⟨by decide, by decide, by decide, by decide, by decide, by decide, by decide⟩

theorem test_reset_inv : State.reset.Inv :=
  ⟨by decide, by decide, by decide, by decide, by decide, by decide, by decide⟩

/-- A pending Fx0A, with the word at PC. -/
def pendingState : State := { busy with pc := 0x202, key := 0, awaiting := true }

theorem test_pending_inv : pendingState.Inv :=
  ⟨by decide, by decide, by decide, by decide, by decide, fun _ => ⟨3, by decide⟩, by decide⟩

/-- A halted core. -/
def halted : State := after State.reset

theorem test_halted_inv : halted.Inv :=
  ⟨by decide, by decide, by decide, by decide, by decide, by decide, fun f h => by
    have : some f = some (⟨.illegalOpcode, 0x200, 0x0000⟩ : FaultRecord) := h.symm.trans (by decide)
    cases this
    exact ⟨by decide, by decide⟩⟩

theorem witness_EncodeGivesBackTheDecodedWord : decode 0x8124 = .ok (.addReg 1 2) ∧ decode 0x8126 = .ok (.shr 1) := by decide

/-- A line of each table row with two forms, and rows that differ in the mnemonic or the operand form alone. -/
theorem witness_AssembledLines : Line.assemble ⟨.shl, [.v 1, .v 2]⟩ = .ok 0x812E ∧ Line.check ⟨.shl, [.v 1, .v 2]⟩ = .ok (.shl 1) ∧
    Line.assemble ⟨.shr, [.v 15]⟩ = .ok 0x8F06 ∧ ⟨.shr, [.v 15, .v 15]⟩ ∈ asmLines (.shr 15) ∧
    Line.check ⟨.sub, [.v 1, .v 2]⟩ = .ok (.sub 1 2) ∧ ⟨.sub, [.v 1, .v 2]⟩ ∉ asmLines (.subn 1 2) ∧
    Line.check ⟨.ld, [.v 1, .atI]⟩ = .ok (.ldVxMem 1) ∧ ⟨.ld, [.v 1, .atI]⟩ ∉ asmLines (.ldMemVx 1) := by
  decide

theorem witness_StepRunsTheDecodedInstruction : busy.fault = none ∧ decode busy.fetchWord = .ok (.addReg 1 2) := by decide

theorem witness_FetchReadsTheBigEndianWordAtPc : busy.pc.toNat = (0x200 : Addr).toNat ∧
    ({ busy with pc := 0x0FFF } : State).pc.toNat = (0xFFF : Addr).toNat := by decide

theorem witness_IllegalWordRaisesAndHalts : State.reset.fault = none ∧ State.reset.pc.toNat = (0x200 : Addr).toNat ∧
    inIllegalSpace State.reset.fetchWord = true := by decide

theorem witness_HaltedCoreChangesNothing : halted.fault = some ⟨.illegalOpcode, 0x200, 0x0000⟩ ∧
    hostMove .tick halted = .next (tick halted) ∧ HostMove.tick ≠ .reset := ⟨by decide, rfl, by decide⟩

theorem witness_FaultEntryChangesPcAndFaultOnly : State.reset.fault = none ∧ step State.reset = .next halted ∧
    halted.fault = some ⟨.illegalOpcode, 0x200, 0x0000⟩ := ⟨rfl, step_after _, by decide⟩

/-- One state for each row of R401, and one that completes. -/
theorem witness_StepFaultsExactlyAsTheTableSays :
    (run 0x2300 { busy with sp := 16 }).fault = some ⟨.stackOverflow, 0x200, 0x2300⟩ ∧
    (run 0x00EE { busy with sp := 0 }).fault = some ⟨.stackUnderflow, 0x200, 0x00EE⟩ ∧
    (run 0x812F busy).fault = some ⟨.illegalOpcode, 0x200, 0x812F⟩ ∧
    (run 0xE19E busy).fault = some ⟨.keyRange, 0x200, 0xE19E⟩ ∧
    (run 0xF133 { busy with i := 0x04F }).fault = some ⟨.fontWrite, 0x200, 0xF133⟩ ∧
    (run 0x2300 { busy with sp := 15 }).fault = none := by decide

theorem witness_StatusSaysHowTheStepEnded : step pendingState = .next (after pendingState) ∧
    stepStatus pendingState = .pending ∧ stepStatus halted = .faulted ∧ stepStatus busy = .ok :=
  ⟨step_after _, by decide, by decide, by decide⟩

/-- One step for each row of R40, at the top of memory where PC wraps. -/
theorem witness_PcEndsAsTheTableSays : let s : State := { busy with pc := 0xFFE }
    s.fault = none ∧ step s = .next (after s) ∧ (run 0x6A42 s).pc = 0x000 ∧ (run 0x3000 s).pc = 0x002 ∧ (run 0x3001 s).pc = 0x000 ∧
    (run 0x1234 s).pc = 0x234 ∧ (run 0x2234 s).pc = 0x234 ∧ (run 0x00EE s).pc = 0x20A ∧ (run 0xB234 s).pc = 0x234 ∧
    (run 0xF30A { s with key := 0 }).pc = 0xFFE ∧ (run 0xF30A s).pc = 0x000 ∧ (run 0x0000 s).pc = 0xFFE ∧
    (run 0x00EE { s with sp := 0 }).pc = 0xFFE :=
  ⟨rfl, step_after _, by decide⟩

theorem witness_InvariantIsKeptByEveryStep : busy.Inv ∧ step busy = .next (after busy) ∧ pendingState.Inv ∧
    step pendingState = .next (after pendingState) ∧ halted.Inv :=
  ⟨test_busy_inv, step_after _, test_pending_inv, step_after _, test_halted_inv⟩

theorem witness_InvariantHoldsAfterReset : Config.wf { defaultConfig with fontBase := 0x1B0 } = true := by decide

/-- A load of two instructions, a key write before the first step, two steps and a tick. -/
theorem witness_ReachableStatesMeetTheInvariant : defaultConfig.wf = true ∧ ∃ s, Reachable defaultConfig s ∧ s.dt = 0 := by
  refine ⟨by decide, _, .tick (.step (.key 3 false (.step (.boot (.key 3 true (.load (bs := [0xF3, 0x0A, 0x63, 0x01]) (.reset 0) rfl)))
    (step_after _))) (step_after _)), by decide⟩

/-- A byte right below the font table, one right above it, and a table that ends at the last reserved byte. -/
theorem witness_ResetLeavesTheResetValues : fontAt50.cfg.wf = true ∧ (0x04F : Addr).toNat < fontAt50.cfg.fontBase.toNat ∧
    fontAt50.cfg.fontBase.toNat + 80 ≤ (0x0A0 : Addr).toNat ∧ fontAt50.memRead 0x04F = 0 ∧ fontAt50.memRead 0x0A0 = 0 ∧
    fontAt50.memRead 0x050 = 0xF0 ∧ fontAt50.memRead 0x09F = 0x80 := by decide

/-- The premise `exec i s = next t` of the statements over all instructions: every instruction has a next state. -/
theorem witness_InstructionFrames : ∀ i : Instr, ∃ t, exec i busy = .next t := fun i => exec_next i busy

theorem witness_RegistersAreReadOnlyByTheirReaders : let s' : State := { busy with v := busy.v.set 0xA 0x77 }
    s' = { busy with v := s'.v } ∧ s' ≠ busy ∧ (∀ r ∈ readRegs (.addReg 1 2), s'.readV r = busy.readV r) ∧
    (∃ t, exec (.addReg 1 2) busy = .next t) ∧ ∃ t', exec (.addReg 1 2) s' = .next t' :=
  ⟨rfl, by decide, by decide, exec_next _ _, exec_next _ _⟩

theorem witness_FlagIsWrittenOnlyByTheSixFlagWriters : writesFlag (.drw 1 2 5) = true ∧ writesFlag (.ldImm 3 7) = false ∧
    ∀ x, x ∈ writtenRegs (.ldImm 3 7) → x ≠ vF := by decide

theorem witness_MemoryIsWrittenOnlyWhereTheTableSays : Memory.wf busy.cfg busy.mem = true ∧ busy.mem ≠ [] ∧
    ∃ t, exec (.ldMemVx 2) busy = .next t := ⟨by decide, by decide, exec_next _ _⟩

theorem witness_IndexIsWrittenOnlyByItsWriters : ({ busy with i := 0xFFF } : State).i.toNat < 4096 := by decide

theorem witness_RetPopsTheStackIntoPc : busy.sp.val = (0 : Fin 16).val + 1 ∧
    ({ busy with sp := 16 } : State).sp.val = (15 : Fin 16).val + 1 ∧
    ({ busy with sp := 0, pc := 0x001 } : State).pc.toNat = ((0xFFF : Addr).toNat + 2) % 4096 ∧
    ({ busy with sp := 0, pc := 0x001 } : State).sp.val = 0 := by decide

theorem witness_CallPushesAndJumps : ({ busy with sp := 0 } : State).sp.val = (0 : Fin 16).val ∧
    ({ busy with sp := 15 } : State).sp.val = (15 : Fin 16).val ∧
    ({ busy with sp := 16, pc := 0x001 } : State).pc.toNat = ((0xFFF : Addr).toNat + 2) % 4096 ∧
    ({ busy with sp := 16, pc := 0x001 } : State).sp.val = 16 := by decide

theorem witness_ReturnGoesBackAfterCall : ∃ t u, ({ busy with sp := 15 } : State).sp.val < 16 ∧
    exec (.call 0x300) { busy with sp := 15 } = .next t ∧ exec .ret { t with dt := 1 } = .next u :=
  ⟨_, _, by decide, rfl, rfl⟩

theorem witness_RegisterSkipsAdvancePc : (1 : BitVec 4) ≠ 0 ∧ (0xF : BitVec 4) ≠ 0 := by decide

theorem witness_FlagWritersWithAnotherDestination : (0xE : Reg) ≠ vF ∧ (0xF : Reg) = vF := by decide

/-- The '0' glyph at I and one pixel under it already on: covered and uncovered pixels, with a collision and without. -/
theorem witness_DrwTogglesTheCoveredPixels :
    SpriteCovers State.reset 62 30 5 0 2 ∧ ¬SpriteCovers State.reset 62 30 0 0 2 ∧
    (∃ px py, SpriteCovers { State.reset with fb := setPixel clearedFb 0 2 true } 62 30 5 px py ∧
      pixel (setPixel clearedFb 0 2 true) px py = true) ∧
    ¬∃ px py, SpriteCovers State.reset 62 30 5 px py ∧ pixel State.reset.fb px py = true := by
  have hc : ∀ s : State, s.mem = [] → s.cfg = defaultConfig → s.i = 0 → SpriteCovers s 62 30 5 0 2 := by
    rintro s hm hg hi
    refine ⟨4, 2, by decide, by decide, by decide, by decide, ?_⟩
    rw [State.memRead, hm, hg, hi]
    decide
  refine ⟨hc _ rfl rfl rfl, ?_, ⟨0, 2, hc _ rfl rfl rfl, by decide⟩, ?_⟩
  · rintro ⟨r, _, hr, _⟩
    exact Nat.not_lt_zero r hr
  · rintro ⟨px, py, _, h⟩
    have : pixel State.reset.fb px py = false := pixel_clearedFb px py
    rw [this] at h
    cases h

/-- Two draws at one place, with other instructions in between that leave what the statement asks for; the first of them reports
no collision. -/
theorem witness_DrawingTwiceRestoresTheScreen : ∃ t t', exec (.drw 1 2 5) busy = .next t ∧
    exec (.drw 1 2 5) { busy with fb := t.fb, dt := 1, pc := 0x208 } = .next t' ∧ t.readV vF = 0 := ⟨_, _, rfl, rfl, by decide⟩

theorem witness_CollisionIsAPixelTurnedOff : (∀ px py, pixel State.reset.fb px py = false) ∧ State.reset.readV 1 = 0 ∧
    State.reset.readV 2 = 0 ∧
    (∀ r : Fin 5, State.reset.memRead (State.reset.dataAddr r.val) = [0xF0, 0x90, 0x90, 0x90, 0xF0][r]) ∧
    (∃ t t', exec (.drw 1 2 5) State.reset = .next t ∧ exec (.drw 1 2 5) { State.reset with fb := t.fb } = .next t') :=
  ⟨pixel_clearedFb, by decide, by decide, by decide, _, _, rfl, rfl⟩

theorem witness_KeySkipsTestTheNamedKey : ((withRegs [(5, 0x0F)]).readV 5).toNat = (15 : Reg).val ∧
    16 ≤ ((withRegs [(5, 0x10)]).readV 5).toNat ∧ 16 ≤ ((withRegs [(5, 0xFF)]).readV 5).toNat ∧
    ({ withRegs [(5, 0x10)] with pc := 0x001 } : State).pc.toNat = ((0xFFF : Addr).toNat + 2) % 4096 := by decide

/-- A key that satisfies the wait under `level` and under `edge`, and none of both: no key down, and the first attempt. -/
theorem witness_WaitForKeyTakesAKeyOrStaysPending :
    (∃ k, Satisfies { State.reset with key := 0x8000 } k) ∧
    (∃ k, Satisfies { edge with key := 0x0028, kwPrev := 0x0008, awaiting := true } k) ∧
    (¬∃ k, Satisfies State.reset k) ∧ (¬∃ k, Satisfies { edge with key := 0x0008 } k) ∧
    State.reset.cfg.keywaitSelect = [] ∧ ({ State.reset with pc := 0x202 } : State).pc.toNat = ((0x200 : Addr).toNat + 2) % 4096 ∧
    Selects { nineFirst with key := 0x0210 } 9 ∧ Selects { nineFirst with key := 0x00A0 } 5 ∧
    Selects { nineFirst with key := 0x8210 } 4 := by
  have sel : ∀ w : Word, ({ nineFirst with key := w } : State).waitKeys ≠ 0 →
      Selects { nineFirst with key := w } (selectKey nineFirst.cfg w) := fun w h => selectKey_selects { nineFirst with key := w } h
  refine ⟨⟨15, by decide, fun h => by cases h⟩, ⟨5, by decide, fun _ => ⟨rfl, by decide⟩⟩, ?_, ?_, rfl, by decide,
    sel 0x0210 (by decide), sel 0x00A0 (by decide), sel 0x8210 (by decide)⟩
  · rintro ⟨k, h, _⟩
    simp [State.reset, State.resetWith] at h
  · rintro ⟨k, _, h⟩
    have := (h rfl).1
    cases this

theorem witness_LdFPointsAtTheGlyph : (0x1B0 : Addr).toNat + 80 ≤ 0x200 ∧ Config.wf { defaultConfig with fontBase := 0x1B0 } = true := by
  decide

/-- The stores of F-16, F-19 and F-20: the last font byte, the first byte after the table, and a wrap into it and short of it. -/
theorem witness_FontWrites : WritesFont { busy with i := 0xFFE } 3 ∧ ¬WritesFont { busy with i := 0xFFD } 3 ∧
    WritesFont { busy with i := 0x04F } 1 ∧ ¬WritesFont { busy with i := 0x050 } 1 ∧
    ¬WritesFont { busy with i := 0x000, cfg := { defaultConfig with fontWritePolicy := .write } } 16 ∧
    Memory.wf busy.cfg busy.mem = true ∧ ({ busy with pc := 0x202 } : State).pc.toNat = ((0x200 : Addr).toNat + 2) % 4096 := by
  refine ⟨⟨rfl, 2, by decide, by decide, by decide⟩, ?_, ⟨rfl, 0, by decide, by decide, by decide⟩, ?_, ?_, by decide, by decide⟩
  · rintro ⟨_, k, hk, _, h⟩
    interval_cases k <;> exact absurd h (by decide)
  · rintro ⟨_, k, hk, _, h⟩
    interval_cases k
    exact absurd h (by decide)
  · rintro ⟨h, _⟩
    cases h

theorem witness_LdVxMemLoadsV0ToVx : (0 : Reg) ≤ 2 ∧ (2 : Reg) ≤ 2 ∧ (2 : Reg) < 3 := by decide

/-- A store, other instructions that leave its bytes and I alone, and the load. -/
theorem witness_LoadAfterStoreRestoresTheRegisters : ∃ t t', Memory.wf busy.cfg busy.mem = true ∧
    ¬WritesFont busy ((2 : Reg).val + 1) ∧ exec (.ldMemVx 2) busy = .next t ∧
    ({ t with v := State.reset.v } : State).i = busy.i ∧
    (∀ a ∈ writtenAddrs (.ldMemVx 2) busy, ({ t with v := State.reset.v } : State).memRead a = t.memRead a) ∧
    exec (.ldVxMem 2) { t with v := State.reset.v } = .next t' := by
  refine ⟨_, _, by decide, ?_, rfl, by decide, fun _ _ => rfl, rfl⟩
  rintro ⟨_, k, hk, _, h⟩
  have : k < 3 := hk
  interval_cases k <;> exact absurd h (by decide)

/-- LD [I], V1 at 0x200 writes the word 0x1234 to 0x202, which the next step fetches. -/
theorem witness_StoredWordIsFetchedByTheNextStep :
    let s : State := { (withRegs [(0, 0x12), (1, 0x34)]).withFetchWord 16 0xF155 with i := 0x202 }
    Memory.wf s.cfg s.mem = true ∧ s.fault = none ∧ decode s.fetchWord = .ok (.ldMemVx 1) ∧ step s = .next (after s) ∧
    (after s).fault = none ∧ (1 : Reg).val = (0 : Reg).val + 1 ∧ s.dataAddr 0 = toAddr (after s).pc ∧
    (after s).fetchWord = 0x1234 ∧ (after (after s)).pc = 0x234 :=
  ⟨by decide, rfl, by decide, step_after _, by decide, rfl, by decide, by decide, by decide⟩

theorem witness_KeyWriteSetsTheNamedKey : (6 : Reg) ≠ 7 := by decide

/-- The longest load fills memory to 0xFFF; one byte more is refused; 0x1FF and, after one byte less, 0xFFF stay. -/
theorem witness_LoadPlacesTheProgramAt0x200 : (List.replicate 3584 (0xAB : Byte)).length ≤ 3584 ∧
    3584 < (List.replicate 3585 (0xAB : Byte)).length ∧ (0x1FF : Addr).toNat < 0x200 ∧
    0x200 + (List.replicate 3583 (0xAB : Byte)).length ≤ (0xFFF : Addr).toNat ∧ 3583 < (List.replicate 3584 (0xAB : Byte)).length ∧
    Memory.wf busy.cfg busy.mem = true := by
  simp only [List.length_replicate]
  decide

/-- A load before the first step; a key write and a tick while a wait is pending; a tick and a reset of a halted core. -/
theorem witness_HostMovesKeepTheInvariant : State.reset.Inv ∧ State.reset.awaiting = false ∧ State.reset.fault = none ∧
    (∃ t, hostMove (.load [0x12, 0x00]) State.reset = .next t) ∧ pendingState.Inv ∧
    hostMove (.setKey 3 true) pendingState = .next (setKey 3 true pendingState) ∧
    hostMove .tick pendingState = .next (tick pendingState) ∧ halted.Inv ∧ hostMove .tick halted = .next (tick halted) ∧
    ∃ t, hostMove .reset halted = .next t :=
  ⟨test_reset_inv, rfl, rfl, ⟨_, rfl⟩, test_pending_inv, rfl, rfl, test_halted_inv, rfl, _, rfl⟩

end Sys2Proof.Tests
end

section
/-! SUPPORT. Proofs for 10_state.md: PC at the end of a step (R40), the V registers that an instruction leaves (R34), and VF as
a flag (R35), over all instructions. Each starts from `exec_cases`: fault entry, or the instruction's effect. -/

namespace Sys2Proof.Machine

/-! ### PC and the V registers after the loops and the random draw -/

@[simp] theorem storeBytes_pc (s : State) (a : Addr) (bs : List Byte) : (s.storeBytes a bs).pc = s.pc := by
  rw [storeBytes_eq]

@[simp] theorem storeBytes_readV (s : State) (a : Addr) (bs : List Byte) (r : Reg) :
    (s.storeBytes a bs).readV r = s.readV r := by
  rw [storeBytes_eq]; rfl

@[simp] theorem loadRegs_pc (s : State) (n : Nat) : (s.loadRegs n).pc = s.pc := by
  rw [loadRegs_eq]

@[simp] theorem randomInto_drawRandom_pc (s : State) (x : Reg) (kk : Byte) : (randomInto x kk s.drawRandom).pc = s.pc := rfl

@[simp] theorem readV_randomInto_drawRandom (s : State) (x r : Reg) (kk : Byte) :
    (randomInto x kk s.drawRandom).readV r = if r = x then Config.randomByte s.draws &&& kk else s.readV r :=
  readV_writeV _ _ _ _

/-! ### PC at the end of a step (R40) -/

/-- PC while the instruction at `a` executes is `(a + 2) mod 4096` (R16), by number. -/
theorem toNat_advance_pc (s : State) : s.advance.pc.toNat = (s.pc.toNat % 4096 + 2) % 4096 := by
  simp

/-- PC after a taken skip of the instruction at `a` is `(a + 4) mod 4096` (R120), by number. -/
theorem toNat_advance_advance_pc (s : State) : s.advance.advance.pc.toNat = (s.pc.toNat % 4096 + 4) % 4096 := by
  rw [toNat_advance_pc, toNat_advance_pc]
  omega

/-- Fault entry in a step puts PC back at the instruction (R410). -/
theorem toNat_advance_enterFault_pc (s : State) (c : FaultCode) (w : Word) :
    (s.advance.enterFault c w).pc.toNat = s.pc.toNat % 4096 := by
  simp

/-- A wait that goes on in a step puts PC back at the instruction (R285). -/
theorem toNat_advance_keepWaiting_pc (s : State) : s.advance.keepWaiting.pc.toNat = s.pc.toNat % 4096 := by
  simp

/-- The keys that satisfy a wait do not depend on PC. -/
@[simp] theorem satisfies_advance (s : State) (k : Reg) : Satisfies s.advance k ↔ Satisfies s k := Iff.rfl

/-- The target of JP V0 is the sum of the address and V0 modulo 4096 (R213). -/
@[simp] theorem toNat_offsetTarget (s : State) (nnn : Addr) :
    (s.offsetTarget nnn).toNat = (nnn.toNat + (s.readV 0).toNat) % 4096 := by
  simp [State.offsetTarget]

/-- An instruction that completes in a step ends with PC as the table of R40 says. -/
theorem pcAtEnd_of_effect (i : Instr) (s t : State) (hf : faultOf i s = none) (h : Effect i s.advance t) :
    PcAtEnd i (s.pc.toNat % 4096) s t.pc.toNat := by
  unfold PcAtEnd
  rw [hf, if_neg (by decide)]
  cases i
  case jp nnn =>
    subst h
    exact toNat_ofAddr nnn
  case call nnn =>
    obtain ⟨j, _, rfl⟩ := h
    exact toNat_ofAddr nnn
  case ret =>
    obtain ⟨j, hj, rfl⟩ := h
    exact ⟨j, hj.symm, by simp⟩
  case jpV0 nnn =>
    subst h
    simp
  case ldVxK x =>
    have wait : s.advance.waitKeys = 0 ↔ ¬∃ k, Satisfies s k := by
      simp only [waitKeys_zero, satisfies_advance]
    rcases h with ⟨idle, rfl⟩ | ⟨pressed, rfl⟩
    · exact ⟨fun hs => absurd hs (wait.1 idle), fun _ => toNat_advance_keepWaiting_pc s⟩
    · exact ⟨fun _ => toNat_advance_pc s, fun hs => absurd (wait.2 hs) pressed⟩
  case seImm | sneImm | seReg | sneReg | skp | sknp =>
    simp only [Effect, skipHolds_advance] at h
    subst h
    dsimp only
    split
    · exact toNat_advance_advance_pc s
    · exact toNat_advance_pc s
  all_goals
    have keeps : t.pc = s.advance.pc := by
      simp only [Effect] at h
      simp [h]
    rw [keeps]
    exact toNat_advance_pc s

/-- Settles O14: a fault, of the word or of the instruction, puts PC back at the instruction; an instruction that completes
follows the table of R40. -/
theorem pcEndsAsTheTableSays : Obligations.PcEndsAsTheTableSays := by
  intro s t running h
  rcases step_cases s t h with ⟨⟨f, halted⟩, _⟩ | ⟨_, ⟨e, he⟩, rfl⟩ | ⟨_, i, hi, hx⟩
  · rw [running] at halted
    cases halted
  · rw [he]
    exact toNat_advance_enterFault_pc s _ _
  · rw [hi]
    rcases exec_cases i s.advance t hx with ⟨c, hc, rfl⟩ | ⟨completes, effect⟩
    · rw [faultOf_advance] at hc
      simp only [PcAtEnd, hc, Option.isSome_some, if_true]
      exact toNat_advance_enterFault_pc s _ _
    · rw [faultOf_advance] at completes
      exact pcAtEnd_of_effect i s t completes effect

/-! ### The V registers an instruction leaves (R34), and VF as a flag (R35) -/

/-- The effect of an instruction that completes leaves every V register outside its write row of R34. -/
theorem effect_sameRegs (i : Instr) (s t : State) (h : Effect i s t) : SameRegs (writtenRegs i) s t := by
  intro r hr
  cases i
  case call nnn =>
    obtain ⟨j, _, rfl⟩ := h
    rfl
  case ret =>
    obtain ⟨j, _, rfl⟩ := h
    rfl
  case ldVxK x =>
    rcases h with ⟨_, rfl⟩ | ⟨_, rfl⟩
    · rfl
    · exact readV_writeV_other s x r _ (List.ne_of_not_mem_cons hr)
  case ldVxMem x =>
    subst h
    have above : ¬r.val < x.val + 1 := fun hlt =>
      hr (List.mem_filter.2 ⟨List.mem_finRange r, decide_eq_true (Nat.le_of_lt_succ hlt)⟩)
    rw [readV_loadRegs s _ x.isLt, if_neg above]
  case seImm | sneImm | seReg | sneReg | skp | sknp =>
    simp only [Effect] at h
    subst h
    split <;> rfl
  all_goals
    simp only [writtenRegs, List.mem_cons, List.not_mem_nil, or_false, not_or] at hr
    simp only [Effect] at h
    simp [h, hr]

/-- An instruction leaves every V register outside its write row of R34, whether it completes or faults. -/
theorem exec_sameRegs (i : Instr) (s t : State) (e : exec i s = .next t) : SameRegs (writtenRegs i) s t := by
  rcases exec_cases i s t e with ⟨c, _, rfl⟩ | ⟨_, effect⟩
  · exact fun _ _ => rfl
  · exact effect_sameRegs i s t effect

theorem flagByte_zero_or_one (f : Bool) : flagByte f = 0 ∨ flagByte f = 1 := by cases f <;> decide

/-- No flag writer has a fault condition in the table of R401. -/
theorem faultOf_of_writesFlag (i : Instr) (s : State) (hw : writesFlag i = true) : faultOf i s = none := by
  cases i
  case addReg | sub | shr | subn | shl | drw => rfl
  all_goals cases hw

/-- A flag writer leaves a flag in VF, whatever its destination (R35, R36). -/
theorem exec_leaves_flag_of_writesFlag (i : Instr) (s t : State) (hw : writesFlag i = true) (e : exec i s = .next t) :
    ∃ f, t.readV vF = flagByte f := by
  have effect := exec_effect i s t (faultOf_of_writesFlag i s hw) e
  cases i
  case addReg | sub | shr | subn | shl =>
    subst effect
    exact ⟨_, (readV_writeFlagged _ _ _ _ _).trans (if_pos rfl)⟩
  case drw =>
    subst effect
    exact ⟨_, (readV_finishDraw _ _ _).trans (if_pos rfl)⟩
  all_goals cases hw

/-- Settles O21: the six flag writers leave a flag in VF, and the frame of R34 keeps VF for the others. -/
theorem flagIsWrittenOnlyByTheSixFlagWriters : Obligations.FlagIsWrittenOnlyByTheSixFlagWriters := by
  intro i s t e
  refine ⟨fun hw => ?_, fun _ hd => ?_⟩
  · obtain ⟨f, hf⟩ := exec_leaves_flag_of_writesFlag i s t hw e
    rw [hf]
    exact flagByte_zero_or_one f
  · exact exec_sameRegs i s t e vF fun hm => hd vF hm rfl

end Sys2Proof.Machine
end

section
/-! SUPPORT. Proofs for 20_memory.md: the word a fetch reads, big-endian and with addresses modulo 4096 (R64, R66). -/

namespace Sys2Proof.Machine

/-! ### The fetched word (R66) -/

/-- The first byte is bits 15 to 8 of the word (R66), by number. -/
theorem toNat_wordOfBytes (hi lo : Byte) : (wordOfBytes hi lo).toNat = hi.toNat * 256 + lo.toNat := by
  have append : (wordOfBytes hi lo).toNat = hi.toNat <<< 8 ||| lo.toNat := BitVec.toNat_append hi lo
  rw [append, ← Nat.shiftLeft_add_eq_or_of_lt lo.isLt, Nat.shiftLeft_eq]

/-- A PC that is an address is reduced to that address (R16, R64). -/
theorem toAddr_eq_of_toNat_eq (w : Word) (a : Addr) (h : w.toNat = a.toNat) : toAddr w = a := by
  rw [toAddr_eq, h, BitVec.ofNat_toNat, BitVec.setWidth_eq]

/-- A fetch reads the byte at the address in PC and the byte at the next address, which after 0xFFF is 0x000 (R66). -/
theorem toNat_fetchWord (s : State) :
    s.fetchWord.toNat = (s.memRead (toAddr s.pc)).toNat * 256 + (s.memRead (toAddr s.pc + 1)).toNat :=
  toNat_wordOfBytes _ _

/-- Settles O8: the fetch is at the address PC holds, and the address after 0xFFF is 0x000. -/
theorem fetchReadsTheBigEndianWordAtPc : Obligations.FetchReadsTheBigEndianWordAtPc := by
  intro s a atPc
  have fetched : s.fetchWord.toNat = (s.memRead a).toNat * 256 + (s.memRead (a + 1)).toNat := by
    rw [toNat_fetchWord, toAddr_eq_of_toNat_eq s.pc a atPc]
  have next : BitVec.ofNat 12 (a.toNat + 1) = a + 1 := by
    rw [BitVec.ofNat_add, BitVec.ofNat_toNat, BitVec.setWidth_eq]
    rfl
  refine ⟨by rw [next]; exact fetched, fun top => ?_⟩
  have wraps : (0xFFF : Addr) + 1 = 0x000 := by decide
  rw [fetched, top, wraps]

end Sys2Proof.Machine
end

section
/-! SUPPORT. Proofs for 30_encoding.md: the operand fields as masked shifts (R92), and the status a step returns (R97). -/

namespace Sys2Proof

/-! ### The operand fields (R92) -/

/-- Masking with a block of k low ones is reduction modulo 2 to the k. -/
theorem toNat_and_lowOnes (v m : Word) (k : Nat) (ones : m.toNat = 2 ^ k - 1) : (v &&& m).toNat = v.toNat % 2 ^ k := by
  rw [BitVec.toNat_and, ones, Nat.and_two_pow_sub_one_eq_mod]

/-- A field in the low bits of a word is the word under the mask of those bits (R92). -/
theorem extractLsb'_zero_eq_and_lowOnes (w m : Word) (k : Nat) (ones : m.toNat = 2 ^ k - 1) :
    w.extractLsb' 0 k = (w &&& m).setWidth k := by
  apply BitVec.eq_of_toNat_eq
  rw [BitVec.toNat_setWidth, toNat_and_lowOnes w m k ones, Nat.mod_mod, BitVec.extractLsb'_toNat, Nat.shiftRight_zero]

/-- A field of k bits from bit `start` up is the shifted word under the mask of k low ones (R92). -/
theorem toNat_extractLsb'_eq_shift_and_lowOnes (w m : Word) (start k : Nat) (ones : m.toNat = 2 ^ k - 1) :
    (w.extractLsb' start k).toNat = ((w >>> start) &&& m).toNat := by
  rw [toNat_and_lowOnes _ m k ones, BitVec.extractLsb'_toNat, BitVec.toNat_ushiftRight]

/-- Settles O4: `nnn`, `kk` and `n` are the low bits of the word, and `x` and `y` are the low bits of the shifted word. -/
theorem fieldsAreExtractedAsInTheSource : Obligations.FieldsAreExtractedAsInTheSource := fun w =>
  ⟨extractLsb'_zero_eq_and_lowOnes w 0x0FFF 12 rfl, toNat_extractLsb'_eq_shift_and_lowOnes w 0x0F 8 4 rfl,
    toNat_extractLsb'_eq_shift_and_lowOnes w 0x0F 4 4 rfl, extractLsb'_zero_eq_and_lowOnes w 0x00FF 8 rfl,
    extractLsb'_zero_eq_and_lowOnes w 0x000F 4 rfl⟩

end Sys2Proof

namespace Sys2Proof.Machine

/-! ### The status a step returns (R97) -/

/-- The next state of a step is `after`, which the status is read from. -/
theorem after_of_step {s t : State} (h : step s = .next t) : after s = t := by
  rw [step_after] at h
  injection h

/-- A step returns FAULTED exactly when FAULT is set afterwards (R97). -/
theorem stepStatus_faulted_iff (s : State) : stepStatus s = .faulted ↔ (after s).fault ≠ none := by
  rw [← Option.isSome_iff_ne_none]
  unfold stepStatus
  split
  · rename_i faulted
    simp [faulted]
  · rename_i running
    split
    · split <;> simp [running]
    · simp [running]

/-- A step returns PENDING exactly when no FAULT is set and an Fx0A leaves AWAIT at 1 (R97). -/
theorem stepStatus_pending_iff (s : State) : stepStatus s = .pending ↔
    (after s).fault = none ∧ (∃ x, decode s.fetchWord = .ok (.ldVxK x)) ∧ (after s).awaiting = true := by
  rw [← Option.not_isSome_iff_eq_none]
  unfold stepStatus
  split
  · rename_i faulted
    simp [faulted]
  · rename_i running
    split
    · rename_i x wait
      simp [running, wait]
    · rename_i other
      have notWaiting : ¬∃ x, decode s.fetchWord = .ok (.ldVxK x) := fun ⟨x, wait⟩ => other x wait
      simp [notWaiting]

/-- A step that leaves no fault ran the decoded instruction to completion (R96, R404, R410, R412). -/
theorem step_effect_of_no_fault {s t : State} (h : step s = .next t) (ht : t.fault = none) :
    ∃ i, decode s.fetchWord = .ok i ∧ Effect i s.advance t := by
  rcases step_cases s t h with ⟨⟨f, halted⟩, rfl⟩ | ⟨_, _, rfl⟩ | ⟨_, i, hi, hx⟩
  · rw [ht] at halted
    cases halted
  · cases ht
  · rcases exec_cases i s.advance t hx with ⟨c, _, rfl⟩ | ⟨_, effect⟩
    · cases ht
    · exact ⟨i, hi, effect⟩

/-- An Fx0A that leaves AWAIT at 1 went on waiting and did nothing else (R285). -/
theorem eq_keepWaiting_of_awaiting {x : Reg} {s t : State} (effect : Effect (.ldVxK x) s t) (waits : t.awaiting = true) :
    t = s.keepWaiting := by
  rcases effect with ⟨_, rfl⟩ | ⟨_, rfl⟩
  · rfl
  · cases waits

/-- A PENDING step went on waiting at its instruction and did nothing else (R97, R285). -/
theorem eq_keepWaiting_of_pending {s t : State} (h : step s = .next t) (pending : stepStatus s = .pending) :
    t = s.advance.keepWaiting := by
  rw [stepStatus_pending_iff, after_of_step h] at pending
  obtain ⟨noFault, ⟨x, hx⟩, waits⟩ := pending
  obtain ⟨i, hi, effect⟩ := step_effect_of_no_fault h noFault
  obtain rfl : i = .ldVxK x := by
    rw [hx] at hi
    injection hi with e
    exact e.symm
  exact eq_keepWaiting_of_awaiting effect waits

/-- Settles O13: the status is read from the state after the step, and a PENDING step has only gone on waiting. -/
theorem statusSaysHowTheStepEnded : Obligations.StatusSaysHowTheStepEnded := by
  intro s t h
  refine ⟨?_, ?_, fun pending => ?_⟩
  · rw [stepStatus_faulted_iff, after_of_step h]
  · rw [stepStatus_pending_iff, after_of_step h]
  · rw [eq_keepWaiting_of_pending h pending]
    exact ⟨toNat_advance_keepWaiting_pc s, rfl⟩

end Sys2Proof.Machine
end

section
/-! SUPPORT. Proofs for 40_control.md: CLS (R121), RET (R124), JP (R127), CALL (R130) and the four skips on registers and
immediates (R133, R136, R139, R142). Each is a decode lemma and what the instruction does by number. -/

namespace Sys2Proof

open Machine

/-! ### The words of 40_control.md decode (R98) -/

theorem decode_wordNNN_jp (nnn : Addr) : decode (wordNNN 0x1 nnn) = .ok (.jp nnn) := by
  have word : wordNNN 0x1 nnn = encNNN 0x1 nnn := wordNNN_eq 0x1 nnn
  simp [word, decode]

theorem decode_wordNNN_call (nnn : Addr) : decode (wordNNN 0x2 nnn) = .ok (.call nnn) := by
  have word : wordNNN 0x2 nnn = encNNN 0x2 nnn := wordNNN_eq 0x2 nnn
  simp [word, decode]

theorem decode_wordXKK_seImm (x : Reg) (kk : Byte) : decode (wordXKK 0x3 x kk) = .ok (.seImm x kk) := by
  have word : wordXKK 0x3 x kk = encXKK 0x3 x kk := wordXKK_eq 0x3 x kk
  simp [word, decode]

theorem decode_wordXKK_sneImm (x : Reg) (kk : Byte) : decode (wordXKK 0x4 x kk) = .ok (.sneImm x kk) := by
  have word : wordXKK 0x4 x kk = encXKK 0x4 x kk := wordXKK_eq 0x4 x kk
  simp [word, decode]

/-- Group 0x5 has an instruction where N is 0 and none elsewhere (R104). -/
theorem decode_wordXYN_group5 (x y : Reg) (n : BitVec 4) :
    decode (wordXYN 0x5 x y n) = if n = 0 then .ok (.seReg x y) else .error .group5 := by
  have word : wordXYN 0x5 x y n = encXYN 0x5 x y n := wordXYN_eq 0x5 x y n
  simp [word, decode]

/-- Group 0x9 has an instruction where N is 0 and none elsewhere (R104). -/
theorem decode_wordXYN_group9 (x y : Reg) (n : BitVec 4) :
    decode (wordXYN 0x9 x y n) = if n = 0 then .ok (.sneReg x y) else .error .group9 := by
  have word : wordXYN 0x9 x y n = encXYN 0x9 x y n := wordXYN_eq 0x9 x y n
  simp [word, decode]

end Sys2Proof

namespace Sys2Proof.Machine

/-! ### PC, fault entry and the skips by number -/

/-- A jump by number: PC holds the address (R39). -/
theorem setPc_eq (s : State) (a : Addr) : s.setPc a = { s with pc := BitVec.ofNat 16 a.toNat } := by
  rw [State.setPc, ofAddr_eq]

/-- Fault entry by number, for the instruction at `a`, which runs with PC 2 past it modulo 4096 (R16, R410). -/
theorem enterFault_eq (s : State) (a : Addr) (c : FaultCode) (w : Word) (h : s.pc.toNat = (a.toNat + 2) % 4096) :
    s.enterFault c w = { s with pc := BitVec.ofNat 16 a.toNat, fault := some ⟨c, a, w⟩ } := by
  rw [State.enterFault, instrAddr_eq s a h, ofAddr_eq]

/-- A skip on equality by number (R120). -/
theorem skipIf_beq (s : State) (a b : Byte) :
    skipIf s (a == b) = .next (if a = b then { s with pc := BitVec.ofNat 16 ((s.pc.toNat + 2) % 4096) } else s) := by
  by_cases h : a = b <;> simp [skipIf, h, advance_eq]

/-- A skip on inequality by number (R120). -/
theorem skipIf_bne (s : State) (a b : Byte) :
    skipIf s (a != b) = .next (if a = b then s else { s with pc := BitVec.ofNat 16 ((s.pc.toNat + 2) % 4096) }) := by
  by_cases h : a = b <;> simp [skipIf, h, advance_eq]

/-! ### RET and CALL with and without room on the stack -/

/-- RET with a live entry takes it off the stack into PC (R43, R124). -/
theorem exec_ret_live (s : State) (j : Fin 16) (live : s.sp.val = j.val + 1) :
    exec .ret s = .next (({ s with sp := j.castSucc } : State).setPc (toAddr s.stack[j])) := by
  obtain ⟨t, ht⟩ := exec_next .ret s
  obtain ⟨k, hk, rfl⟩ := exec_effect .ret s t (by simp [faultOf, live]) ht
  obtain rfl : k = j := Fin.ext (by omega)
  exact ht

/-- CALL with room on the stack pushes PC and jumps (R43, R130). -/
theorem exec_call_room (nnn : Addr) (s : State) (j : Fin 16) (room : s.sp.val = j.val) :
    exec (.call nnn) s = .next (({ s with stack := s.stack.set j s.pc, sp := j.succ } : State).setPc nnn) := by
  have noFault : faultOf (.call nnn) s = none := if_neg (by omega)
  obtain ⟨t, ht⟩ := exec_next (.call nnn) s
  obtain ⟨k, hk, rfl⟩ := exec_effect (.call nnn) s t noFault ht
  obtain rfl : k = j := Fin.ext (by omega)
  exact ht

/-! ### The statements -/

/-- Settles O28: with a live entry RET is the effect of a pop into PC; with none it is fault entry. -/
theorem retPopsTheStackIntoPc : Obligations.RetPopsTheStackIntoPc := by
  refine ⟨by decide, fun s j live => ⟨_, exec_ret_live s j live, rfl, ?_, rfl⟩, fun s a atA empty => ?_⟩
  · rw [State.setPc_pc, toNat_ofAddr, toNat_toAddr]
  · rw [exec_of_fault .ret s .stackUnderflow (if_pos empty), enterFault_eq s a _ _ atA]
    rfl

/-- Settles O30: with room on the stack CALL is a push of PC and a jump; with none it is fault entry. -/
theorem callPushesAndJumps : Obligations.CallPushesAndJumps := by
  intro nnn
  refine ⟨decode_wordNNN_call nnn, fun s j room => ⟨_, exec_call_room nnn s j room, rfl, ?_, fun k other => ?_, ?_, rfl⟩,
    fun s a atA full => ?_⟩
  · exact Vector.getElem_set_self j.isLt
  · exact Vector.getElem_set_ne j.isLt k.isLt fun same => other (Fin.ext same.symm)
  · exact toNat_ofAddr nnn
  · have word : encode (.call nnn) = wordNNN 0x2 nnn := (wordNNN_eq 0x2 nnn).symm
    rw [exec_of_fault (.call nnn) s .stackOverflow (if_pos full), enterFault_eq s a _ _ atA, word]

/-- Settles O27: the framebuffer CLS puts in place has every pixel off. -/
theorem clsClearsTheScreen : Obligations.ClsClearsTheScreen :=
  ⟨by decide, fun s => ⟨s.setFb clearedFb, rfl, fun px py => pixel_clearedFb px py, rfl⟩⟩

/-- Settles O29: JP is the write of its address to PC. -/
theorem jpSetsPc : Obligations.JpSetsPc := fun nnn =>
  ⟨decode_wordNNN_jp nnn, fun s => congrArg _ (setPc_eq s nnn)⟩

/-- Settles O32: SE Vx, kk is the skip on equality and SNE Vx, kk the skip on inequality. -/
theorem immediateSkipsAdvancePc : Obligations.ImmediateSkipsAdvancePc := fun x kk =>
  ⟨decode_wordXKK_seImm x kk, decode_wordXKK_sneImm x kk, fun s =>
    ⟨skipIf_beq s (s.readV x) kk, skipIf_bne s (s.readV x) kk⟩⟩

/-- Settles O33: SE Vx, Vy is the skip on equality and SNE Vx, Vy the skip on inequality, and their groups hold no other
word. -/
theorem registerSkipsAdvancePc : Obligations.RegisterSkipsAdvancePc := by
  intro x y
  refine ⟨decode_wordXYN_group5 x y 0, decode_wordXYN_group9 x y 0, fun n hn => ?_, fun s =>
    ⟨skipIf_beq s (s.readV x) (s.readV y), skipIf_bne s (s.readV x) (s.readV y)⟩⟩
  rw [decode_wordXYN_group5, decode_wordXYN_group9, if_neg hn, if_neg hn]
  exact ⟨rfl, rfl⟩

end Sys2Proof.Machine
end

section
/-! SUPPORT. Proofs for 41_alu.md: the loads, the additions and subtractions, the bitwise operations and the shifts on V
registers (R161 to R185). An instruction of this family is one `writeV` or one `writeFlagged`; its frame is that of R34
(`exec_sameRegs`), and what is left to say is its result and its flag by number. -/

namespace Sys2Proof

open Machine

/-! ### The words of 41_alu.md decode (R98) -/

theorem decode_wordXKK_ldImm (x : Reg) (kk : Byte) : decode (wordXKK 0x6 x kk) = .ok (.ldImm x kk) := by
  have word : wordXKK 0x6 x kk = encXKK 0x6 x kk := wordXKK_eq 0x6 x kk
  simp [word, decode]

theorem decode_wordXKK_addImm (x : Reg) (kk : Byte) : decode (wordXKK 0x7 x kk) = .ok (.addImm x kk) := by
  have word : wordXKK 0x7 x kk = encXKK 0x7 x kk := wordXKK_eq 0x7 x kk
  simp [word, decode]

/-- Group 0x8 is decoded by its N field, in a table of its own (R98). -/
theorem decode_wordXYN_group8 (x y : Reg) (n : BitVec 4) : decode (wordXYN 0x8 x y n) = decode8 (encXYN 0x8 x y n) := by
  have word : wordXYN 0x8 x y n = encXYN 0x8 x y n := wordXYN_eq 0x8 x y n
  simp [word, decode]

end Sys2Proof

namespace Sys2Proof.Machine

/-! ### The flags by number (R35) -/

/-- The carry (R173). -/
theorem toNat_flagByte_carryOut (a b : Byte) :
    (flagByte (carryOut a b)).toNat = if a.toNat + b.toNat > 255 then 1 else 0 := by
  simp [carryOut]

/-- No borrow (R174, R180). -/
theorem toNat_flagByte_noBorrow (a b : Byte) : (flagByte (noBorrow a b)).toNat = if a.toNat ≥ b.toNat then 1 else 0 := by
  simp [noBorrow]

/-- The bit a right shift by one shifts out is the remainder by 2 (R175). -/
theorem toNat_flagByte_bitOutRight (a : Byte) : (flagByte (bitOutRight a)).toNat = a.toNat % 2 := by
  rw [toNat_flagByte, bitOutRight, BitVec.getLsbD, Nat.testBit_zero]
  rcases Nat.mod_two_eq_zero_or_one a.toNat with h | h <;> simp [h]

/-- The bit a left shift by one shifts out is the quotient by 128 (R185). -/
theorem toNat_flagByte_bitOutLeft (a : Byte) : (flagByte (bitOutLeft a)).toNat = a.toNat / 128 := by
  rw [toNat_flagByte, bitOutLeft, BitVec.getLsbD, Nat.testBit_eq_decide_div_mod_eq]
  simp only [decide_eq_true_eq]
  split <;> omega

/-! ### Subtraction by number (R160, R186) -/

/-- The difference of two bytes is the integer difference modulo 256. -/
theorem toNat_byte_sub (a b : Byte) : ((a - b).toNat : Int) = (a.toNat - b.toNat : Int) % 256 := by
  have := b.isLt
  rw [BitVec.toNat_sub]
  omega

/-! ### What a flagged write leaves in VF and in its destination (R36) -/

/-- VF keeps the flag, for every destination. -/
theorem readV_writeFlagged_vF (s : State) (x : Reg) (b : Byte) (f : Bool) :
    (s.writeFlagged x b f).readV vF = flagByte f := by simp

/-- A destination other than VF keeps the result. -/
theorem readV_writeFlagged_dest (s : State) (x : Reg) (b : Byte) (f : Bool) (other : x ≠ vF) :
    (s.writeFlagged x b f).readV x = b := by simp [other]

/-! ### The statements -/

/-- Settles O34: LD Vx, kk is the write of kk to Vx. -/
theorem ldImmLoadsTheImmediate : Obligations.LdImmLoadsTheImmediate := fun x kk =>
  ⟨decode_wordXKK_ldImm x kk, fun s =>
    ⟨_, rfl, readV_writeV_same s x kk, exec_sameRegs (.ldImm x kk) s _ rfl, rfl⟩⟩

/-- Settles O35: ADD Vx, kk is the write of the sum to Vx, and a write to another register leaves VF. -/
theorem addImmAddsModulo256WithoutFlag : Obligations.AddImmAddsModulo256WithoutFlag := by
  intro x kk
  refine ⟨decode_wordXKK_addImm x kk, fun s =>
    ⟨_, rfl, ?_, fun other => readV_writeV_other s x vF _ other.symm, exec_sameRegs (.addImm x kk) s _ rfl, rfl⟩⟩
  rw [readV_writeV_same, BitVec.toNat_add]

/-- Settles O36: LD Vx, Vy is the write of the old V[y] to Vx. -/
theorem ldRegCopiesTheRegister : Obligations.LdRegCopiesTheRegister := fun x y =>
  ⟨by simp [decode_wordXYN_group8, decode8], fun s =>
    ⟨_, rfl, readV_writeV_same s x _, exec_sameRegs (.ldReg x y) s _ rfl, rfl⟩⟩

/-- Settles O37: OR, AND and XOR are each the write of one operation on bytes, which works bit by bit. -/
theorem logicOperationsWorkBitByBit : Obligations.LogicOperationsWorkBitByBit := by
  intro x y
  refine ⟨by simp [decode_wordXYN_group8, decode8], by simp [decode_wordXYN_group8, decode8],
    by simp [decode_wordXYN_group8, decode8], fun s =>
    ⟨⟨_, rfl, exec_sameRegs (.or x y) s _ rfl, rfl, fun b => ?_⟩,
      ⟨_, rfl, exec_sameRegs (.and x y) s _ rfl, rfl, fun b => ?_⟩,
      ⟨_, rfl, exec_sameRegs (.xor x y) s _ rfl, rfl, fun b => ?_⟩⟩⟩
  · rw [readV_writeV_same, BitVec.getLsbD_or]
  · rw [readV_writeV_same, BitVec.getLsbD_and]
  · rw [readV_writeV_same, BitVec.getLsbD_xor]

/-- Settles O38: ADD Vx, Vy is the flagged write of the sum with its carry. -/
theorem addRegAddsWithCarryInVf : Obligations.AddRegAddsWithCarryInVf := by
  intro x y
  refine ⟨by simp [decode_wordXYN_group8, decode8], fun s =>
    ⟨_, rfl, ?_, fun other => ?_, exec_sameRegs (.addReg x y) s _ rfl, rfl⟩⟩
  · rw [readV_writeFlagged_vF, toNat_flagByte_carryOut]
  · rw [readV_writeFlagged_dest _ _ _ _ other, BitVec.toNat_add]

/-- Settles O39: SUB and SUBN are the flagged writes of the two differences, each with its no-borrow. -/
theorem subtractionsSubtractWithNoBorrowInVf : Obligations.SubtractionsSubtractWithNoBorrowInVf := by
  intro x y
  refine ⟨by simp [decode_wordXYN_group8, decode8], by simp [decode_wordXYN_group8, decode8], fun s =>
    ⟨⟨_, rfl, ?_, fun other => ?_, exec_sameRegs (.sub x y) s _ rfl, rfl⟩,
      ⟨_, rfl, ?_, fun other => ?_, exec_sameRegs (.subn x y) s _ rfl, rfl⟩⟩⟩
  · rw [readV_writeFlagged_vF, toNat_flagByte_noBorrow]
  · rw [readV_writeFlagged_dest _ _ _ _ other, toNat_byte_sub]
  · rw [readV_writeFlagged_vF, toNat_flagByte_noBorrow]
  · rw [readV_writeFlagged_dest _ _ _ _ other, toNat_byte_sub]

/-- Settles O40: SHR and SHL are the flagged writes of the shifted value with the bit shifted out; decode drops the y field
(R99). -/
theorem shiftsShiftVxByOne : Obligations.ShiftsShiftVxByOne := by
  intro x y
  refine ⟨by simp [decode_wordXYN_group8, decode8], by simp [decode_wordXYN_group8, decode8], fun s =>
    ⟨⟨_, rfl, ?_, fun other => ?_, exec_sameRegs (.shr x) s _ rfl, rfl⟩,
      ⟨_, rfl, ?_, fun other => ?_, exec_sameRegs (.shl x) s _ rfl, rfl⟩⟩⟩
  · rw [readV_writeFlagged_vF, toNat_flagByte_bitOutRight]
  · rw [readV_writeFlagged_dest _ _ _ _ other, BitVec.toNat_ushiftRight, Nat.shiftRight_one]
  · rw [readV_writeFlagged_vF, toNat_flagByte_bitOutLeft]
  · rw [readV_writeFlagged_dest _ _ _ _ other, BitVec.toNat_shiftLeft, Nat.shiftLeft_eq, pow_one]

end Sys2Proof.Machine
end

section
/-! SUPPORT. Proofs for 42_index_jump_random.md: LD I, nnn (R210) and JP V0, nnn (R213). The first is one `setI`, the second
one `setPc` of the target with offset; what is left to say is each of them by number. -/

namespace Sys2Proof

open Machine

/-! ### The words of LD I and JP V0 decode (R98) -/

theorem decode_wordNNN_ldI (nnn : Addr) : decode (wordNNN 0xA nnn) = .ok (.ldI nnn) := by
  have word : wordNNN 0xA nnn = encNNN 0xA nnn := wordNNN_eq 0xA nnn
  simp [word, decode]

theorem decode_wordNNN_jpV0 (nnn : Addr) : decode (wordNNN 0xB nnn) = .ok (.jpV0 nnn) := by
  have word : wordNNN 0xB nnn = encNNN 0xB nnn := wordNNN_eq 0xB nnn
  simp [word, decode]

end Sys2Proof

namespace Sys2Proof.Machine

/-! ### I by number -/

/-- A load of I by number: I holds the address, its top four bits 0 (R38). -/
theorem setI_eq (s : State) (a : Addr) : s.setI a = { s with i := BitVec.ofNat 16 a.toNat } := by
  rw [State.setI, ofAddr_eq]

/-! ### The statements -/

/-- Settles O41: LD I is the write of its address to I. -/
theorem ldILoadsTheAddress : Obligations.LdILoadsTheAddress := fun nnn =>
  ⟨decode_wordNNN_ldI nnn, fun s => congrArg _ (setI_eq s nnn)⟩

/-- Settles O42: JP V0 is the write of the target with offset to PC. -/
theorem jpV0JumpsToTheSum : Obligations.JpV0JumpsToTheSum := by
  refine fun nnn => ⟨decode_wordNNN_jpV0 nnn, fun s => ?_⟩
  calc exec (.jpV0 nnn) s
    _ = .next (s.setPc (s.offsetTarget nnn)) := rfl
    _ = _ := by rw [setPc_eq, toNat_offsetTarget]

end Sys2Proof.Machine
end

section
/-! SUPPORT. Proofs for 43_draw.md: DRW toggles the pixels its sprite covers and sets VF to the collision (R230, R231, R235),
which is that a pixel goes from on to off (R237). What a draw does is said once, of its next state, by `SpriteCovers`. -/

namespace Sys2Proof

open Machine

theorem decode_wordXYN_drw (x y : Reg) (n : BitVec 4) : decode (wordXYN 0xD x y n) = .ok (.drw x y n) := by
  have word : wordXYN 0xD x y n = encXYN 0xD x y n := wordXYN_eq 0xD x y n
  simp [word, decode]

end Sys2Proof

namespace Sys2Proof.Machine

/-! ### A flag of 0 or 1 (R35) -/

theorem flagByte_eq_one_iff (f : Bool) : flagByte f = 1 ↔ f = true := by cases f <;> decide

theorem flagByte_eq_zero_iff (f : Bool) : flagByte f = 0 ↔ ¬f = true := by cases f <;> decide

/-! ### The state after a draw (R235) -/

section AfterDraw
variable {x y : Reg} {n : BitVec 4} {s t : State} (e : exec (.drw x y n) s = .next t)
include e

theorem pixel_drw_of_covered {px : Fin 64} {py : Fin 32}
    (h : SpriteCovers s (s.readV x) (s.readV y) n.toNat px py) : pixel t.fb px py = !pixel s.fb px py := by
  cases e
  exact (pixel_drawRows s _ _ _ n.isLt px py).1 ((drawnOn_iff ..).2 h)

theorem pixel_drw_of_not_covered {px : Fin 64} {py : Fin 32}
    (h : ¬SpriteCovers s (s.readV x) (s.readV y) n.toNat px py) : pixel t.fb px py = pixel s.fb px py := by
  cases e
  exact (pixel_drawRows s _ _ _ n.isLt px py).2 fun drawn => h ((drawnOn_iff ..).1 drawn)

/-- VF after a draw is the flag of its collision: one of the covered pixels was on. -/
theorem readV_vF_drw :
    ∃ f, t.readV vF = flagByte f ∧
      (f = true ↔ ∃ px py, SpriteCovers s (s.readV x) (s.readV y) n.toNat px py ∧ pixel s.fb px py = true) := by
  cases e
  refine ⟨_, (readV_finishDraw ..).trans (if_pos rfl), ?_⟩
  simp only [collide_drawRows s _ _ _ n.isLt, drawnOn_iff]

theorem vF_drw_eq_one_iff :
    t.readV vF = 1 ↔ ∃ px py, SpriteCovers s (s.readV x) (s.readV y) n.toNat px py ∧ pixel s.fb px py = true := by
  obtain ⟨f, flag, collision⟩ := readV_vF_drw e
  rw [flag, flagByte_eq_one_iff, collision]

theorem vF_drw_eq_zero_iff :
    t.readV vF = 0 ↔ ¬∃ px py, SpriteCovers s (s.readV x) (s.readV y) n.toNat px py ∧ pixel s.fb px py = true := by
  obtain ⟨f, flag, collision⟩ := readV_vF_drw e
  rw [flag, flagByte_eq_zero_iff, collision]

/-- The covered pixels that were on are the pixels that a draw turns off (R237). -/
theorem covered_on_iff_turned_off (px : Fin 64) (py : Fin 32) :
    SpriteCovers s (s.readV x) (s.readV y) n.toNat px py ∧ pixel s.fb px py = true ↔
      pixel s.fb px py = true ∧ pixel t.fb px py = false := by
  by_cases covered : SpriteCovers s (s.readV x) (s.readV y) n.toNat px py
  · simp [covered, pixel_drw_of_covered e covered]
  · simp [covered, pixel_drw_of_not_covered e covered]

end AfterDraw

/-- Five rows drawn at (0, 0) with the first byte F0, as in the '0' glyph, cover the pixel (0, 0) by its leftmost bit (R230). -/
theorem spriteCovers_origin_of_firstByte (s : State) (h : s.memRead (s.dataAddr 0) = 0xF0) : SpriteCovers s 0 0 5 0 0 := by
  refine (drawnOn_iff ..).1 ⟨0, 0, by decide, by decide, rfl, rfl, ?_⟩
  rw [h]
  decide

/-! ### The statements -/

/-- Settles O44: the next state of a draw has the covered pixels toggled and VF set to the collision, and the frame of R34
leaves every other register. -/
theorem drwTogglesTheCoveredPixels : Obligations.DrwTogglesTheCoveredPixels := by
  refine fun x y n => ⟨decode_wordXYN_drw x y n, fun s => ?_⟩
  obtain ⟨t, e⟩ := exec_next (.drw x y n) s
  refine ⟨t, e, fun _ _ => pixel_drw_of_covered e, fun _ _ => pixel_drw_of_not_covered e, (vF_drw_eq_one_iff e).2,
    (vF_drw_eq_zero_iff e).2, exec_sameRegs (.drw x y n) s t e, ?_⟩
  cases e
  rfl

/-- Settles O46: the covered pixels that were on are those turned off; the first '0' glyph finds every pixel off and turns on
the pixel (0, 0), which the second one finds on. -/
theorem collisionIsAPixelTurnedOff : Obligations.CollisionIsAPixelTurnedOff := by
  refine ⟨fun x y n s t e => ?_, fun x y s t s' t' dark hx hy glyph e same hx' hy' glyph' e' => ⟨?_, ?_⟩⟩
  · simp only [vF_drw_eq_one_iff e, covered_on_iff_turned_off e]
  · rw [vF_drw_eq_zero_iff e]
    rintro ⟨px, py, _, on⟩
    simp [dark] at on
  · have covered : SpriteCovers s (s.readV x) (s.readV y) 5 0 0 := by
      rw [hx, hy]
      exact spriteCovers_origin_of_firstByte s (glyph 0)
    have covered' : SpriteCovers s' (s'.readV x) (s'.readV y) 5 0 0 := by
      rw [hx', hy']
      exact spriteCovers_origin_of_firstByte s' (glyph' 0)
    have on : pixel s'.fb 0 0 = true := by
      rw [same, pixel_drw_of_covered e covered, dark]
      rfl
    exact (vF_drw_eq_one_iff e').2 ⟨0, 0, covered', on⟩

end Sys2Proof.Machine
end

section
/-! SUPPORT. Proofs for 44_keys.md: SKP (R262) and SKNP (R265) are a skip on the key that V[x] names, or fault entry when it
names none (R260, R405). -/

namespace Sys2Proof

open Machine

/-- Group 0xE is decoded by its low byte, in a table of its own (R98). -/
theorem decode_wordXKK_groupE (x : Reg) (kk : Byte) : decode (wordXKK 0xE x kk) = decodeE (encXKK 0xE x kk) := by
  have word : wordXKK 0xE x kk = encXKK 0xE x kk := wordXKK_eq 0xE x kk
  simp [word, decode]

end Sys2Proof

namespace Sys2Proof.Machine

/-- A key skip on a register that names a key is the skip on the state of that key (R260). -/
theorem skipOnKey_of_named (s : State) (x k : Reg) (down : Bool) (w : Word) (named : (s.readV x).toNat = k.val) :
    skipOnKey s x down w = .next (if s.keyDown k = down then s.advance else s) := by
  have inRange : (s.readV x).toNat < 16 := named ▸ k.isLt
  have same : (⟨(s.readV x).toNat, inRange⟩ : Reg) = k := Fin.ext named
  exact (skipOnKey_next s _ x down w).2 (.inr ⟨inRange, by rw [same]⟩)

/-! ### The statement -/

/-- Settles O47: with a key named SKP and SKNP are the skip on it, down and up; with none each is fault entry with its own
word. -/
theorem keySkipsTestTheNamedKey : Obligations.KeySkipsTestTheNamedKey := by
  refine fun x => ⟨by simp [decode_wordXKK_groupE, decodeE], by simp [decode_wordXKK_groupE, decodeE],
    fun s k named => ⟨?_, ?_⟩, fun s a atA noKey => ⟨?_, ?_⟩⟩
  · rw [← advance_eq]
    exact skipOnKey_of_named s x k true _ named
  · rw [← advance_eq]
    calc exec (.sknp x) s
      _ = .next (if s.keyDown k = false then s.advance else s) := skipOnKey_of_named s x k false _ named
      _ = .next (if s.keyDown k = true then s else s.advance) := by cases s.keyDown k <;> rfl
  · have word : encode (.skp x) = wordXKK 0xE x 0x9E := (wordXKK_eq 0xE x 0x9E).symm
    rw [exec_of_fault (.skp x) s .keyRange (if_pos noKey), enterFault_eq s a _ _ atA, word]
  · have word : encode (.sknp x) = wordXKK 0xE x 0xA1 := (wordXKK_eq 0xE x 0xA1).symm
    rw [exec_of_fault (.sknp x) s .keyRange (if_pos noKey), enterFault_eq s a _ _ atA, word]

end Sys2Proof.Machine
end

section
/-! SUPPORT. Proofs for 45_misc.md: the timers (R280, R290, R295), the wait for a key (R285), the sums and glyph addresses in I
(R300, R305), and the bytes stored to and loaded from memory at I (R310, R315, R320). -/

namespace Sys2Proof

open Machine

/-- Group 0xF is decoded by its low byte, in a table of its own (R98). -/
theorem decode_wordXKK_groupF (x : Reg) (kk : Byte) : decode (wordXKK 0xF x kk) = decodeF (encXKK 0xF x kk) := by
  have word : wordXKK 0xF x kk = encXKK 0xF x kk := wordXKK_eq 0xF x kk
  simp [word, decode]

end Sys2Proof

namespace Sys2Proof.Machine

/-! ### The wait for a key (R285) -/

/-- A wait that some key satisfies ends with the selected key in Vx. -/
theorem exec_ldVxK_of_satisfied (x : Reg) (s : State) (pressed : ∃ k, Satisfies s k) :
    exec (.ldVxK x) s = .next (s.writeV x (BitVec.ofNat 8 (selectKey s.cfg s.waitKeys).val)).endWait :=
  if_neg fun idle => (waitKeys_zero s).1 idle pressed

/-- A wait that no key satisfies goes on. -/
theorem exec_ldVxK_of_unsatisfied (x : Reg) (s : State) (idle : ¬∃ k, Satisfies s k) :
    exec (.ldVxK x) s = .next s.keepWaiting :=
  if_pos ((waitKeys_zero s).2 idle)

/-- A wait that goes on, by number, for the Fx0A at `a` (R16). -/
theorem keepWaiting_eq (s : State) (a : Addr) (atA : s.pc.toNat = (a.toNat + 2) % 4096) :
    s.keepWaiting = { s with kwPrev := s.key, awaiting := true, pc := BitVec.ofNat 16 a.toNat } := by
  rw [State.keepWaiting, instrAddr_eq s a atA, ofAddr_eq]

/-- Under the default KEYWAIT_SELECT, which lists no set, the selected key is the lowest-numbered (R8, D11). -/
theorem Selects.le_of_default {s : State} {k j : Reg} (selects : Selects s k) (unlisted : s.cfg.keywaitSelect = [])
    (hj : Satisfies s j) : k ≤ j := by
  obtain ⟨_, lowest⟩ := selects.2 s.waitKeys (waitKeys_iff s)
  refine lowest (fun e listed => ?_) j hj
  rw [unlisted] at listed
  cases listed

/-- A step of a running core executes the decoded instruction with PC advanced (R96). -/
theorem step_of_decode {s : State} {i : Instr} (running : s.fault = none) (hi : decode s.fetchWord = .ok i) :
    step s = exec i s.advance := by
  simp [step, running, hi]

/-- The step that takes a key returns OK (R97, R285). -/
theorem stepStatus_ok_of_satisfied {x : Reg} {s : State} (running : s.fault = none)
    (hi : decode s.fetchWord = .ok (.ldVxK x)) (pressed : ∃ k, Satisfies s k) : stepStatus s = .ok := by
  have next := after_of_step ((step_of_decode running hi).trans (exec_ldVxK_of_satisfied x s.advance pressed))
  simp [stepStatus, next, hi, running]

/-- The step that goes on waiting returns PENDING (R97, R285). -/
theorem stepStatus_pending_of_unsatisfied {x : Reg} {s : State} (running : s.fault = none)
    (hi : decode s.fetchWord = .ok (.ldVxK x)) (idle : ¬∃ k, Satisfies s k) : stepStatus s = .pending := by
  have next := after_of_step ((step_of_decode running hi).trans (exec_ldVxK_of_unsatisfied x s.advance idle))
  rw [stepStatus_pending_iff, next]
  exact ⟨running, ⟨x, hi⟩, rfl⟩

/-! ### The addresses put in I, by number (R300, R305) -/

theorem toNat_indexSum (s : State) (x : Reg) : (s.indexSum x).toNat = (s.i.toNat + (s.readV x).toNat) % 4096 := by
  simp [State.indexSum]

/-- The low nibble of a byte is its remainder by 16 (R305). -/
theorem toNat_lowNibble (b : Byte) : (b &&& 0x0F).toNat = b.toNat % 16 := Nat.and_two_pow_sub_one_eq_mod b.toNat 4

theorem toNat_glyphAddr (c : Config) (b : Byte) :
    (glyphAddr c b).toNat = (c.fontBase.toNat + 5 * (b.toNat % 16)) % 4096 := by
  simp only [glyphAddr, toNat_lowNibble, BitVec.toNat_add, BitVec.toNat_ofNat]
  omega

/-! ### The bytes stored and loaded at I (R310, R315, R320) -/

/-- A data address is I plus the offset, by number (R64). -/
theorem dataAddr_eq (s : State) (k : Nat) : s.dataAddr k = BitVec.ofNat 12 (s.i.toNat + k) := by
  apply BitVec.eq_of_toNat_eq
  simp

/-- The bytes stored from I on, up to the 4096 that memory holds, are read back at their data addresses. -/
theorem memRead_storeBytes_dataAddr (s : State) (bs : List Byte) (wf : Memory.wf s.cfg s.mem = true)
    (fits : bs.length ≤ 4096) (k : Nat) (hk : k < bs.length) :
    (s.storeBytes (s.dataAddr 0) bs).memRead (s.dataAddr k) = bs[k] := by
  rw [← dataAddr_zero_add s k]
  exact memRead_storeBytes_at s _ bs k hk fits wf

/-- Every byte outside the data addresses of a store from I on reads as before. -/
theorem memRead_storeBytes_of_ne_dataAddr (s : State) (bs : List Byte) (wf : Memory.wf s.cfg s.mem = true) (a : Addr)
    (outside : ∀ k, k < bs.length → a ≠ s.dataAddr k) : (s.storeBytes (s.dataAddr 0) bs).memRead a = s.memRead a :=
  memRead_storeBytes_other s _ bs a wf fun k hk => dataAddr_zero_add s k ▸ outside k hk

/-- LD B stores the digits when no byte falls in the font table under the policy `fault` (R74, R310). -/
theorem exec_ldB_of_not_writesFont (x : Reg) (s : State) (clear : ¬WritesFont s 3) :
    exec (.ldB x) s = .next (s.storeBytes (s.dataAddr 0) (bcdDigits (s.readV x))) :=
  (storeAtI_next ..).2 (.inr ⟨clear, rfl⟩)

/-- LD [I], Vx stores V0 to Vx when no byte falls in the font table under the policy `fault` (R74, R315). -/
theorem exec_ldMemVx_of_not_writesFont (x : Reg) (s : State) (clear : ¬WritesFont s (x.val + 1)) :
    exec (.ldMemVx x) s = .next (s.storeBytes (s.dataAddr 0) (s.regsUpTo x)) :=
  (storeAtI_next ..).2 (.inr ⟨by rwa [length_regsUpTo], rfl⟩)

/-! ### The statements -/

/-- Settles O48: each of the three is one write, of DT to Vx or of V[x] to a timer. -/
theorem timerInstructionsMoveTheByte : Obligations.TimerInstructionsMoveTheByte := fun x =>
  ⟨by simp [decode_wordXKK_groupF, decodeF], by simp [decode_wordXKK_groupF, decodeF],
    by simp [decode_wordXKK_groupF, decodeF], fun s =>
    ⟨⟨_, rfl, readV_writeV_same s x s.dt, exec_sameRegs (.ldVxDt x) s _ rfl, rfl⟩, rfl, rfl⟩⟩

/-- Settles O49: with a key that satisfies the wait Fx0A takes the selected one, with none it goes on waiting, and the status
of its step is read from the state after it. -/
theorem waitForKeyTakesAKeyOrStaysPending : Obligations.WaitForKeyTakesAKeyOrStaysPending := by
  refine fun x => ⟨by simp [decode_wordXKK_groupF, decodeF], fun s pressed => ?_, fun s a atA idle => ?_,
    fun s running hi => ⟨stepStatus_ok_of_satisfied running hi, stepStatus_pending_of_unsatisfied running hi⟩⟩
  · have selects := selectKey_selects s fun idle => (waitKeys_zero s).1 idle pressed
    have taken := exec_ldVxK_of_satisfied x s pressed
    refine ⟨_, _, taken, selects, fun unlisted _ => selects.le_of_default unlisted, ?_,
      exec_sameRegs (.ldVxK x) s _ taken, rfl⟩
    rw [State.endWait_readV, readV_writeV_same]
    exact Nat.mod_eq_of_lt (by omega)
  · rw [exec_ldVxK_of_unsatisfied x s idle, keepWaiting_eq s a atA]

/-- Settles O50: ADD I is the write of the sum to I. -/
theorem addIAddsModulo4096 : Obligations.AddIAddsModulo4096 := by
  refine fun x => ⟨by simp [decode_wordXKK_groupF, decodeF], fun s => ?_⟩
  calc exec (.addI x) s
    _ = .next (s.setI (s.indexSum x)) := rfl
    _ = _ := by rw [setI_eq, toNat_indexSum]

/-- Settles O51: LD F is the write of the glyph's address to I; the last glyph begins 75 bytes after FONT_BASE, so that with
FONT_BASE in its domain no address is reduced. -/
theorem ldFPointsAtTheGlyph : Obligations.LdFPointsAtTheGlyph := by
  refine fun x => ⟨by simp [decode_wordXKK_groupF, decodeF], fun s => ?_⟩
  have address : (s.setI (glyphAddr s.cfg (s.readV x))).i.toNat =
      (s.cfg.fontBase.toNat + 5 * ((s.readV x).toNat % 16)) % 4096 := by
    rw [State.setI_i, toNat_ofAddr, toNat_glyphAddr]
  refine ⟨_, rfl, rfl, address, fun fits => ?_⟩
  have below : s.cfg.fontBase.toNat + 5 * ((s.readV x).toNat % 16) < 0x200 := by omega
  rw [address, Nat.mod_eq_of_lt (by omega)]
  exact ⟨rfl, below⟩

/-- Settles O52: LD B is a store of the three digits from I on, or fault entry with its own word. -/
theorem ldBStoresTheDecimalDigits : Obligations.LdBStoresTheDecimalDigits := by
  refine fun x => ⟨by simp [decode_wordXKK_groupF, decodeF], fun s wf clear => ?_, fun s a atA hit => ?_⟩
  · have byte := (s.readV x).isLt
    have digit := memRead_storeBytes_dataAddr s (bcdDigits (s.readV x)) wf (by simp)
    refine ⟨_, exec_ldB_of_not_writesFont x s clear, ?_, ?_, ?_, fun a outside => ?_, storeBytes_eq ..⟩
    · rw [digit 0 (by simp)]
      exact Nat.mod_eq_of_lt (by omega)
    · rw [digit 1 (by simp)]
      exact Nat.mod_eq_of_lt (by omega)
    · rw [digit 2 (by simp)]
      exact Nat.mod_eq_of_lt (by omega)
    · refine memRead_storeBytes_of_ne_dataAddr s _ wf a fun k hk same => outside ?_
      rw [length_bcdDigits] at hk
      subst same
      interval_cases k <;> simp
  · have word : encode (.ldB x) = wordXKK 0xF x 0x33 := (wordXKK_eq 0xF x 0x33).symm
    rw [exec_of_fault (.ldB x) s .fontWrite (if_pos hit), enterFault_eq s a _ _ atA, word]

/-- Settles O53: LD [I], Vx is a store of V0 to Vx from I on, or fault entry with its own word. -/
theorem ldMemVxStoresV0ToVx : Obligations.LdMemVxStoresV0ToVx := by
  refine fun x => ⟨by simp [decode_wordXKK_groupF, decodeF], fun s wf clear => ?_, fun s a atA hit => ?_⟩
  · refine ⟨_, exec_ldMemVx_of_not_writesFont x s clear, fun k hk => ?_, fun a outside => ?_, storeBytes_eq ..⟩
    · have fits : (s.regsUpTo x).length ≤ 4096 := by
        rw [length_regsUpTo]
        omega
      have stored : k.val < (s.regsUpTo x).length := by
        rw [length_regsUpTo]
        exact Nat.lt_succ_of_le hk
      rw [memRead_storeBytes_dataAddr s _ wf fits k.val stored, getElem_regsUpTo]
    · refine memRead_storeBytes_of_ne_dataAddr s _ wf a fun k hk => ?_
      rw [length_regsUpTo] at hk
      exact outside ⟨k, by omega⟩ (Nat.le_of_lt_succ hk)
  · have word : encode (.ldMemVx x) = wordXKK 0xF x 0x55 := (wordXKK_eq 0xF x 0x55).symm
    rw [exec_of_fault (.ldMemVx x) s .fontWrite (if_pos hit), enterFault_eq s a _ _ atA, word]

/-- Settles O54: LD Vx, [I] loads the registers up to Vx, each from its own data address. -/
theorem ldVxMemLoadsV0ToVx : Obligations.LdVxMemLoadsV0ToVx := by
  refine fun x => ⟨by simp [decode_wordXKK_groupF, decodeF], fun s =>
    ⟨s.loadRegs (x.val + 1), rfl, fun k hk => ?_, fun k hk => ?_, loadRegs_eq s _⟩⟩
  · rw [readV_loadRegs s _ x.isLt, if_pos (Nat.lt_succ_of_le hk), dataAddr_eq]
  · rw [readV_loadRegs s _ x.isLt, if_neg (Nat.not_lt.2 hk)]

end Sys2Proof.Machine
end

section
/-! SUPPORT. Proofs for 60_exceptions.md: the illegal word (R404), fault entry and the table of faults (R401, R407, R410), the
halted core (R412), and the host's key write and timer tick (R432, R436). -/

namespace Sys2Proof

open Machine

/-! ### The illegal space (R104) -/

theorem decode0_of_ne {w : Word} (notCls : w ≠ 0x00E0) (notRet : w ≠ 0x00EE) : decode0 w = .error .group0 := by
  rw [decode0, if_neg notCls, if_neg notRet]

theorem decode8_of_unlisted {w : Word} (n : (nField w).toNat ∈ [0x8, 0x9, 0xA, 0xB, 0xC, 0xD, 0xF]) :
    decode8 w = .error .group8 := by
  unfold decode8
  split <;> simp_all

theorem decodeE_of_unlisted {w : Word} (kk : (kkField w).toNat ∉ [0x9E, 0xA1]) : decodeE w = .error .groupE := by
  unfold decodeE
  split <;> simp_all

theorem decodeF_of_unlisted {w : Word}
    (kk : (kkField w).toNat ∉ [0x07, 0x0A, 0x15, 0x18, 0x1E, 0x29, 0x33, 0x55, 0x65]) : decodeF w = .error .groupF := by
  unfold decodeF
  split <;> simp_all

/-- No word that R104 lists in the illegal space is an instruction. -/
theorem decode_error_of_inIllegalSpace {w : Word} (illegal : inIllegalSpace w = true) : ∃ e, decode w = .error e := by
  simp only [inIllegalSpace, Bool.or_eq_true, Bool.and_eq_true, beq_iff_eq, bne_iff_ne, Bool.not_eq_true',
    List.contains_eq_mem, decide_eq_true_eq, decide_eq_false_iff_not, ← toNat_opField, ← toNat_nField, ← toNat_kkField]
    at illegal
  rcases illegal with ((((⟨⟨op, notCls⟩, notRet⟩ | ⟨op, n⟩) | ⟨op, n⟩) | ⟨op, n⟩) | ⟨op, kk⟩) | ⟨op, kk⟩
  · have group : decode w = decode0 w := by simp [decode, op]
    exact ⟨_, group.trans (decode0_of_ne (fun e => notCls (by rw [e]; rfl)) (fun e => notRet (by rw [e]; rfl)))⟩
  · have n : nField w ≠ 0 := fun e => n (by rw [e]; rfl)
    exact ⟨.group5, by simpa [decode, op] using n⟩
  · have group : decode w = decode8 w := by simp [decode, op]
    exact ⟨_, group.trans (decode8_of_unlisted n)⟩
  · have n : nField w ≠ 0 := fun e => n (by rw [e]; rfl)
    exact ⟨.group9, by simpa [decode, op] using n⟩
  · have group : decode w = decodeE w := by simp [decode, op]
    exact ⟨_, group.trans (decodeE_of_unlisted kk)⟩
  · have group : decode w = decodeF w := by simp [decode, op]
    exact ⟨_, group.trans (decodeF_of_unlisted kk)⟩

/-! ### The word of an instruction that faults (R91, R410) -/

section
variable {w : Word} {op : BitVec 4}

theorem encNNN_nnnField (hop : (opField w).toNat = op.toNat) : encNNN op (nnnField w) = w := by
  rw [← BitVec.eq_of_toNat_eq hop, encNNN_fields]

theorem encXKK_xField_kkField {kk : Byte} (hop : (opField w).toNat = op.toNat) (hkk : (kkField w).toNat = kk.toNat) :
    encXKK op (xField w) kk = w := by
  rw [← BitVec.eq_of_toNat_eq hop, ← BitVec.eq_of_toNat_eq hkk, encXKK_fields]

end

/-- The two words of group 0x0 are the encodings of CLS and RET. -/
theorem encode_of_decode0 {w : Word} {i : Instr} (hi : decode0 w = .ok i) : encode i = w := by
  unfold decode0 at hi
  split_ifs at hi with isCls isRet <;> cases hi
  · exact isCls.symm
  · exact isRet.symm

/-- A legal word of group 0xE is the encoding of its instruction. -/
theorem encode_of_decodeE {w : Word} {i : Instr} (op : (opField w).toNat = 0xE) (hi : decodeE w = .ok i) :
    encode i = w := by
  unfold decodeE at hi
  split at hi <;> cases hi
  all_goals exact encXKK_xField_kkField op ‹_›

/-- A legal word of group 0xF is the encoding of its instruction. -/
theorem encode_of_decodeF {w : Word} {i : Instr} (op : (opField w).toNat = 0xF) (hi : decodeF w = .ok i) :
    encode i = w := by
  unfold decodeF at hi
  split at hi <;> cases hi
  all_goals exact encXKK_xField_kkField op ‹_›

/-- A fetched instruction that faults is encoded as the word it was decoded from: SHR and SHL, whose y field is not kept (R99),
raise no fault. -/
theorem encode_of_decode_of_fault {w : Word} {i : Instr} {s : State} {c : FaultCode} (hi : decode w = .ok i)
    (fault : faultOf i s = some c) : encode i = w := by
  unfold decode at hi
  split at hi
  case h_1 => exact encode_of_decode0 hi
  case h_3 op => -- CALL, group 0x2
    cases hi
    exact encNNN_nnnField op
  case h_6 | h_10 => -- the skips on two registers, groups 0x5 and 0x9
    split_ifs at hi
    cases hi
    cases fault
  case h_9 => -- group 0x8
    unfold decode8 at hi
    split at hi <;> cases hi <;> cases fault
  case h_15 op => exact encode_of_decodeE op hi
  case h_16 =>
    have op : (opField w).toNat = 0xF := by
      have := (opField w).isLt
      simp only [imp_false] at *
      omega
    exact encode_of_decodeF op hi
  all_goals
    cases hi
    cases fault

end Sys2Proof

namespace Sys2Proof.Machine

/-! ### The fault a step raises (R401, R410) -/

/-- The fault that the step of a running core raises: on an illegal word ILLEGAL_OPCODE, else the instruction's own. -/
def raisedFault (s : State) : Option FaultCode :=
  match decode s.fetchWord with
  | .error _ => some .illegalOpcode
  | .ok i => faultOf i s

theorem raisedFault_of_error {s : State} {e : DecodeError} (he : decode s.fetchWord = .error e) :
    raisedFault s = some .illegalOpcode := by
  simp [raisedFault, he]

theorem raisedFault_of_ok {s : State} {i : Instr} (hi : decode s.fetchWord = .ok i) : raisedFault s = faultOf i s := by
  simp [raisedFault, hi]

/-- Fault entry in the step of a running core: it is all that the step does, or FAULT stays empty (R407, R410). -/
theorem step_enters_raisedFault {s t : State} (running : s.fault = none) (h : step s = .next t) :
    (∃ c, raisedFault s = some c ∧ t = s.advance.enterFault c s.fetchWord) ∨ (raisedFault s = none ∧ t.fault = none) := by
  rcases step_cases s t h with ⟨⟨f, halted⟩, _⟩ | ⟨_, ⟨e, he⟩, rfl⟩ | ⟨_, i, hi, hx⟩
  · rw [running] at halted
    cases halted
  · exact .inl ⟨_, raisedFault_of_error he, rfl⟩
  · rw [raisedFault_of_ok hi, ← faultOf_advance]
    rcases exec_cases i s.advance t hx with ⟨c, hc, rfl⟩ | ⟨completes, _⟩
    · exact .inl ⟨c, hc, by rw [encode_of_decode_of_fault hi hc]⟩
    · exact .inr ⟨completes, (exec_keeps_fault i _ t completes hx).trans running⟩

theorem stepStatus_faulted_of_fault {s t : State} {f : FaultRecord} (h : step s = .next t) (ht : t.fault = some f) :
    stepStatus s = .faulted := by
  rw [stepStatus_faulted_iff, after_of_step h, ht]
  exact Option.some_ne_none f

/-- Fault entry in a step at an address leaves PC there (R39, R410). -/
theorem advance_enterFault_at {s : State} {a : Addr} (atA : s.pc.toNat = a.toNat) (c : FaultCode) (w : Word) :
    s.advance.enterFault c w = { s with fault := some ⟨c, a, w⟩ } := by
  have below : s.pc.toNat % 4096 = s.pc.toNat := Nat.mod_eq_of_lt (atA ▸ a.isLt)
  rw [advance_enterFault, toAddr_eq_of_toNat_eq s.pc a atA, below, BitVec.ofNat_toNat, BitVec.setWidth_eq]

/-! ### The host's moves (R430, R432, R436) -/

@[simp] theorem storeBytes_fault (s : State) (a : Addr) (bs : List Byte) : (s.storeBytes a bs).fault = s.fault := by
  rw [storeBytes_eq]

/-- Every host move but reset leaves FAULT (R412). -/
theorem hostMove_keeps_fault {m : HostMove} {s t : State} (h : hostMove m s = .next t) (notReset : m ≠ .reset) :
    t.fault = s.fault := by
  cases m
  case load bs =>
    simp only [hostMove, hostLoad] at h
    split at h <;> cases h
    exact storeBytes_fault s programBase bs
  case setKey k down => cases h; rfl
  case tick => cases h; rfl
  case reset => exact absurd rfl notReset

/-- One tick of a timer is the difference with 1 cut off at 0, by number (R436). -/
theorem toNat_tickTimer (b : Byte) : (tickTimer b).toNat = b.toNat - 1 := by
  unfold tickTimer
  split
  · rename_i zero
    subst zero
    rfl
  · rename_i positive
    have := b.isLt
    have : b.toNat ≠ 0 := fun e => positive (BitVec.eq_of_toNat_eq e)
    simp
    omega

/-! ### The statements -/

/-- Settles O9: an illegal word is no instruction, so that the step is fault entry at the address in PC. -/
theorem illegalWordRaisesAndHalts : Obligations.IllegalWordRaisesAndHalts := by
  intro s a running atA illegal
  obtain ⟨e, he⟩ := decode_error_of_inIllegalSpace illegal
  have entry : step s = .next (s.advance.enterFault .illegalOpcode s.fetchWord) := by simp [step, running, he, raiseFault]
  rw [advance_enterFault_at atA] at entry
  exact ⟨entry, stepStatus_faulted_of_fault entry rfl⟩

/-- Settles O10: the step of a halted core answers the same state, and no host move but reset writes FAULT. -/
theorem haltedCoreChangesNothing : Obligations.HaltedCoreChangesNothing := by
  intro s f halted
  have stays : step s = .next s := by simp [step, halted]
  exact ⟨stays, stepStatus_faulted_of_fault stays halted, fun m t h notReset =>
    (hostMove_keeps_fault h notReset).trans halted⟩

/-- Settles O11: a step that records a fault is fault entry with the fetched word. -/
theorem faultEntryChangesPcAndFaultOnly : Obligations.FaultEntryChangesPcAndFaultOnly := by
  intro s t f running h faulted
  have status := stepStatus_faulted_of_fault h faulted
  rcases step_enters_raisedFault running h with ⟨c, _, rfl⟩ | ⟨_, noFault⟩
  · rw [advance_enterFault] at faulted ⊢
    cases faulted
    exact ⟨toNat_toAddr s.pc, rfl, rfl, status⟩
  · rw [noFault] at faulted
    cases faulted

/-- Settles O12: the step enters exactly the fault it raises, which the table gives. -/
theorem stepFaultsExactlyAsTheTableSays : Obligations.StepFaultsExactlyAsTheTableSays := by
  refine ⟨fun s t running h => ?_, rfl, rfl, rfl, rfl, rfl⟩
  change t.fault = (raisedFault s).map _
  rcases step_enters_raisedFault running h with ⟨c, raised, rfl⟩ | ⟨raised, noFault⟩
  · rw [raised, advance_enterFault, toAddr_eq]
    rfl
  · rw [raised, noFault]
    rfl

/-- Settles O57: a tick is a tick of each timer. -/
theorem tickCountsTimersDown : Obligations.TickCountsTimersDown := fun s =>
  ⟨toNat_tickTimer s.dt, toNat_tickTimer s.st, rfl⟩

/-- Settles O58: a key write puts the value at its own key in KEY. -/
theorem keyWriteSetsTheNamedKey : Obligations.KeyWriteSetsTheNamedKey := fun s k down =>
  ⟨(keyDown_setKey s k k down).trans (if_pos rfl), fun j other => (keyDown_setKey s k j down).trans (if_neg other), rfl⟩

end Sys2Proof.Machine
end

section
/-! SUPPORT. Proofs for 30_encoding.md: decode and encode as inverses of each other (R91, R98), and the illegal space (R104). -/

namespace Sys2Proof

open Machine

/-! ### Decode after encode (R91, R98) -/

/-- Decoding the word of an instruction gives it back: format by format, the fields of the word are the operands, and the
groups 0x8, 0xE and 0xF find their sub-opcode in a table of their own. -/
theorem decode_encode (i : Instr) : decode (encode i) = .ok i := by
  cases i
  case cls | ret => decide
  case jp | call | ldI | jpV0 => simp [encode, decode] -- format NNN
  case seImm | sneImm | ldImm | addImm | rnd => simp [encode, decode] -- format XKK
  case drw => simp [encode, decode] -- format XYN
  case seReg | sneReg => simp [encode, decode] -- format XYS, the sub-opcode 0
  case ldReg | or | and | xor | addReg | sub | shr | subn | shl => simp [encode, decode, decode8]
  case skp | sknp => simp [encode, decode, decodeE]
  case ldVxDt | ldVxK | ldDtVx | ldStVx | addI | ldF | ldB | ldMemVx | ldVxMem => simp [encode, decode, decodeF]

/-- Settles O2: the fields of an encoded word are the operands it was put together from. -/
theorem decodeGivesBackTheEncodedInstruction : Obligations.DecodeGivesBackTheEncodedInstruction := decode_encode

/-! ### Encode after decode (R91, R98, R99) -/

section
variable {w : Word} {op n : BitVec 4}

theorem encXKK_xField (hop : (opField w).toNat = op.toNat) : encXKK op (xField w) (kkField w) = w :=
  encXKK_xField_kkField hop rfl

theorem encXYN_xField_yField (hop : (opField w).toNat = op.toNat) (hn : (nField w).toNat = n.toNat) :
    encXYN op (xField w) (yField w) n = w := by
  rw [← BitVec.eq_of_toNat_eq hop, ← BitVec.eq_of_toNat_eq hn, encXYN_fields]

/-- A word put together without its y field is that word with the field cleared (R99). -/
theorem encXYN_xField_zero (hop : (opField w).toNat = op.toNat) (hn : (nField w).toNat = n.toNat) :
    encXYN op (xField w) 0 n = w &&& 0xFF0F := by
  rw [← encXYN_clear_y (xField w) (yField w), encXYN_xField_yField hop hn]

end

/-- What encoding a decoded instruction gives: the word, or for SHR and SHL the word without its y field (R99). -/
def EncodesAs (i : Instr) (w : Word) : Prop :=
  (encode i = w ∧ ∀ x, i ≠ .shr x ∧ i ≠ .shl x) ∨ (encode i = w &&& 0xFF0F ∧ ∃ x, i = .shr x ∨ i = .shl x)

/-- A legal word of group 0x8 is the encoding of its instruction, but for the y field of SHR and SHL. -/
theorem encodesAs_of_decode8 {w : Word} {i : Instr} (op : (opField w).toNat = 0x8) (hi : decode8 w = .ok i) :
    EncodesAs i w := by
  unfold decode8 at hi
  split at hi <;> cases hi
  case h_7 n => exact .inr ⟨encXYN_xField_zero op n, _, .inl rfl⟩
  case h_9 n => exact .inr ⟨encXYN_xField_zero op n, _, .inr rfl⟩
  all_goals exact .inl ⟨encXYN_xField_yField op ‹_›, fun x => ⟨nofun, nofun⟩⟩

/-- An instruction whose word is outside group 0x8 is neither SHR nor SHL. -/
theorem encodesAs_of_encode_eq {w : Word} {i : Instr} (op : (opField w).toNat ≠ 0x8) (same : encode i = w) :
    EncodesAs i w := by
  subst same
  refine .inl ⟨rfl, fun x => ⟨?_, ?_⟩⟩ <;>
  · rintro rfl
    simp [encode] at op

/-- The only bits of a legal word that decode does not keep are the y field of SHR and SHL (R99). -/
theorem encodesAs_of_decode {w : Word} {i : Instr} (hi : decode w = .ok i) : EncodesAs i w := by
  unfold decode at hi
  split at hi
  case h_1 op => exact encodesAs_of_encode_eq (by omega) (encode_of_decode0 hi)
  case h_2 op | h_3 op | h_11 op | h_12 op => -- format NNN
    cases hi
    exact encodesAs_of_encode_eq (by omega) (encNNN_nnnField op)
  case h_4 op | h_5 op | h_7 op | h_8 op | h_13 op => -- format XKK
    cases hi
    exact encodesAs_of_encode_eq (by omega) (encXKK_xField op)
  case h_6 op | h_10 op => -- format XYS, the sub-opcode 0
    split_ifs at hi with n
    cases hi
    exact encodesAs_of_encode_eq (by omega) (encXYN_xField_yField op (congrArg BitVec.toNat n))
  case h_9 op => exact encodesAs_of_decode8 op hi
  case h_14 op => -- format XYN
    cases hi
    exact encodesAs_of_encode_eq (by omega) (encXYN_xField_yField op rfl)
  case h_15 op => exact encodesAs_of_encode_eq (by omega) (encode_of_decodeE op hi)
  case h_16 =>
    have op : (opField w).toNat = 0xF := by
      have := (opField w).isLt
      simp only [imp_false] at *
      omega
    exact encodesAs_of_encode_eq (by omega) (encode_of_decodeF op hi)

/-- Settles O3: a decoded word is put together again from its fields, all of them but the y field of SHR and SHL. -/
theorem encodeGivesBackTheDecodedWord : Obligations.EncodeGivesBackTheDecodedWord := fun _ _ => encodesAs_of_decode

/-! ### The illegal space (R104) -/

/-- The illegal space by the fields of the word. -/
theorem inIllegalSpace_iff (w : Word) : inIllegalSpace w = true ↔
    ((opField w).toNat = 0x0 ∧ w ≠ 0x00E0 ∧ w ≠ 0x00EE) ∨ ((opField w).toNat = 0x5 ∧ nField w ≠ 0) ∨
    ((opField w).toNat = 0x8 ∧ (nField w).toNat ∈ [0x8, 0x9, 0xA, 0xB, 0xC, 0xD, 0xF]) ∨
    ((opField w).toNat = 0x9 ∧ nField w ≠ 0) ∨ ((opField w).toNat = 0xE ∧ (kkField w).toNat ∉ [0x9E, 0xA1]) ∨
    ((opField w).toNat = 0xF ∧ (kkField w).toNat ∉ [0x07, 0x0A, 0x15, 0x18, 0x1E, 0x29, 0x33, 0x55, 0x65]) := by
  have word : ∀ v : Word, w ≠ v ↔ w.toNat ≠ v.toNat := fun v => not_congr BitVec.toNat_inj.symm
  have nibble : nField w ≠ 0 ↔ (nField w).toNat ≠ 0 := not_congr BitVec.toNat_inj.symm
  simp only [inIllegalSpace, Bool.or_eq_true, Bool.and_eq_true, beq_iff_eq, bne_iff_ne, Bool.not_eq_true',
    List.contains_eq_mem, decide_eq_true_eq, decide_eq_false_iff_not, word, nibble, toNat_opField, toNat_nField,
    toNat_kkField, and_assoc, or_assoc]
  rfl

theorem of_decode0_error {w : Word} {e : DecodeError} (he : decode0 w = .error e) : w ≠ 0x00E0 ∧ w ≠ 0x00EE := by
  unfold decode0 at he
  split_ifs at he with notCls notRet
  exact ⟨notCls, notRet⟩

theorem of_decode8_error {w : Word} {e : DecodeError} (he : decode8 w = .error e) :
    (nField w).toNat ∈ [0x8, 0x9, 0xA, 0xB, 0xC, 0xD, 0xF] := by
  have := (nField w).isLt
  unfold decode8 at he
  split at he <;> cases he
  simp only [imp_false, List.mem_cons, List.not_mem_nil, or_false] at *
  omega

theorem of_decodeE_error {w : Word} {e : DecodeError} (he : decodeE w = .error e) : (kkField w).toNat ∉ [0x9E, 0xA1] := by
  unfold decodeE at he
  split at he <;> cases he
  simp_all

theorem of_decodeF_error {w : Word} {e : DecodeError} (he : decodeF w = .error e) :
    (kkField w).toNat ∉ [0x07, 0x0A, 0x15, 0x18, 0x1E, 0x29, 0x33, 0x55, 0x65] := by
  unfold decodeF at he
  split at he <;> cases he
  simp_all

/-- Every word that decode refuses is in the illegal space: the groups without a condition refuse none. -/
theorem inIllegalSpace_of_decode_error {w : Word} {e : DecodeError} (he : decode w = .error e) :
    inIllegalSpace w = true := by
  rw [inIllegalSpace_iff]
  unfold decode at he
  split at he
  case h_1 op => exact .inl ⟨op, of_decode0_error he⟩
  case h_6 op =>
    split_ifs at he with n
    exact .inr (.inl ⟨op, n⟩)
  case h_9 op => exact .inr (.inr (.inl ⟨op, of_decode8_error he⟩))
  case h_10 op =>
    split_ifs at he with n
    exact .inr (.inr (.inr (.inl ⟨op, n⟩)))
  case h_15 op => exact .inr (.inr (.inr (.inr (.inl ⟨op, of_decodeE_error he⟩))))
  case h_16 =>
    have op : (opField w).toNat = 0xF := by
      have := (opField w).isLt
      simp only [imp_false] at *
      omega
    exact .inr (.inr (.inr (.inr (.inr ⟨op, of_decodeF_error he⟩))))
  all_goals cases he

/-- Settles O5: decode refuses each listed word, and each word it refuses is listed. -/
theorem illegalWordsAreTheIllegalSpace : Obligations.IllegalWordsAreTheIllegalSpace := fun _ =>
  ⟨fun ⟨_, he⟩ => inIllegalSpace_of_decode_error he, decode_error_of_inIllegalSpace⟩

/-- Settles O1: decode runs on each of the words. -/
theorem wordsOfEveryFamilyDecode : Obligations.WordsOfEveryFamilyDecode := by
  unfold Obligations.WordsOfEveryFamilyDecode
  decide

end Sys2Proof
end

section
/-! SUPPORT. Proofs for 30_encoding.md: the assembler's lines (R106, R107). What the check accepts is read off its table once in
each direction, and a line assembles to the encoding of what it is accepted as, but for the written Vy of SHR and SHL. -/

namespace Sys2Proof

open Machine

/-! ### Results that can be errors -/

theorem except_map_eq_ok {ε α β : Type} {f : α → β} {c : Except ε α} {b : β} :
    c.map f = .ok b ↔ ∃ a, c = .ok a ∧ f a = b := by
  cases c <;> simp [Except.map]

theorem except_bind_eq_ok {ε α β : Type} {f : α → Except ε β} {c : Except ε α} {b : β} :
    (c >>= f) = .ok b ↔ ∃ a, c = .ok a ∧ f a = .ok b := by
  cases c <;> simp [bind, Except.bind]

theorem except_pure_eq_ok {ε α : Type} {a b : α} : (pure a : Except ε α) = .ok b ↔ a = b := by
  simp [pure, Except.pure]

/-! ### The operands that the check accepts (R106) -/

theorem checkReg_eq_ok {r : Nat} {x : Reg} : checkReg r = .ok x ↔ r = x.val := by
  have := x.isLt
  unfold checkReg
  split
  · simp [Fin.ext_iff]
  · simp only [reduceCtorEq, false_iff]
    omega

theorem checkAddr_eq_ok {n : Nat} {nnn : Addr} : checkAddr n = .ok nnn ↔ n = nnn.toNat := by
  have := nnn.isLt
  unfold checkAddr
  split
  · rw [Except.ok.injEq, ← BitVec.toNat_inj, BitVec.toNat_ofNat]
    omega
  · simp only [reduceCtorEq, false_iff]
    omega

theorem checkImm_eq_ok {n : Nat} {kk : Byte} : checkImm n = .ok kk ↔ n = kk.toNat := by
  have := kk.isLt
  unfold checkImm
  split
  · rw [Except.ok.injEq, ← BitVec.toNat_inj, BitVec.toNat_ofNat]
    omega
  · simp only [reduceCtorEq, false_iff]
    omega

theorem checkHeight_eq_ok {n : Nat} {h : BitVec 4} : checkHeight n = .ok h ↔ n = h.toNat := by
  have := h.isLt
  unfold checkHeight
  split
  · rw [Except.ok.injEq, ← BitVec.toNat_inj, BitVec.toNat_ofNat]
    omega
  · simp only [reduceCtorEq, false_iff]
    omega

@[simp] theorem checkReg_val (x : Reg) : checkReg x.val = .ok x := checkReg_eq_ok.2 rfl

@[simp] theorem checkAddr_toNat (nnn : Addr) : checkAddr nnn.toNat = .ok nnn := checkAddr_eq_ok.2 rfl

@[simp] theorem checkImm_toNat (kk : Byte) : checkImm kk.toNat = .ok kk := checkImm_eq_ok.2 rfl

@[simp] theorem checkHeight_toNat (n : BitVec 4) : checkHeight n.toNat = .ok n := checkHeight_eq_ok.2 rfl

/-! ### The lines that the check accepts (R106) -/

/-- An accepted line is one that the table gives its instruction: its operands are those of the instruction by number, and
the Vy of SHR and SHL is any register. -/
theorem mem_asmLines_of_check {l : Line} {i : Instr} (h : l.check = .ok i) : l ∈ asmLines i := by
  obtain ⟨m, operands⟩ := l
  unfold Line.check at h
  dsimp only at h
  split at h
  case h_1 | h_2 => -- CLS and RET
    cases h
    exact List.mem_singleton_self _
  case h_37 => cases h -- no row of the table
  all_goals simp only [except_map_eq_ok, except_bind_eq_ok, except_pure_eq_ok, checkReg_eq_ok, checkAddr_eq_ok,
    checkImm_eq_ok, checkHeight_eq_ok] at h
  case h_29 | h_32 => -- SHR Vx, Vy and SHL Vx, Vy
    obtain ⟨x, rfl, y, rfl, rfl⟩ := h
    simp [asmLines]
  case h_34 => -- DRW
    obtain ⟨x, rfl, y, rfl, n, rfl, rfl⟩ := h
    exact List.mem_singleton_self _
  case h_6 | h_7 | h_8 | h_9 | h_10 | h_11 | h_21 | h_22 | h_24 | h_25 | h_26 | h_27 | h_30 | h_33 => -- two operands
    obtain ⟨x, rfl, y, rfl, rfl⟩ := h
    exact List.mem_singleton_self _
  all_goals -- one operand
    obtain ⟨x, rfl, rfl⟩ := h
    exact List.mem_cons_self

/-- Every line that the table gives an instruction is accepted as it. -/
theorem check_of_mem_asmLines {l : Line} {i : Instr} (h : l ∈ asmLines i) : l.check = .ok i := by
  cases i
  case shr x | shl x =>
    simp only [asmLines, List.mem_cons, List.mem_map, List.mem_finRange, true_and] at h
    rcases h with rfl | ⟨y, rfl⟩ <;> simp [Line.check, Except.map, except_bind_eq_ok]
  all_goals
    simp only [asmLines, List.mem_singleton] at h
    subst h
    simp [Line.check, Except.map, except_bind_eq_ok]

/-! ### The word of a line (R106, R107) -/

theorem assemble_shr (x : Reg) : Line.assemble ⟨.shr, [.v x.val]⟩ = .ok (encXYN 0x8 x 0 0x6) :=
  except_map_eq_ok.2 ⟨.shr x, check_of_mem_asmLines List.mem_cons_self, rfl⟩

theorem assemble_shl (x : Reg) : Line.assemble ⟨.shl, [.v x.val]⟩ = .ok (encXYN 0x8 x 0 0xE) :=
  except_map_eq_ok.2 ⟨.shl x, check_of_mem_asmLines List.mem_cons_self, rfl⟩

theorem assemble_shr_vy_eq_ok {a b : Nat} {w : Word} : Line.assemble ⟨.shr, [.v a, .v b]⟩ = .ok w ↔
    ∃ x : Reg, a = x.val ∧ ∃ y : Reg, b = y.val ∧ encXYN 0x8 x y 0x6 = w := by
  simp only [Line.assemble, except_bind_eq_ok, except_pure_eq_ok, checkReg_eq_ok]

theorem assemble_shl_vy_eq_ok {a b : Nat} {w : Word} : Line.assemble ⟨.shl, [.v a, .v b]⟩ = .ok w ↔
    ∃ x : Reg, a = x.val ∧ ∃ y : Reg, b = y.val ∧ encXYN 0x8 x y 0xE = w := by
  simp only [Line.assemble, except_bind_eq_ok, except_pure_eq_ok, checkReg_eq_ok]

/-- A line is SHR or SHL with a written Vy, or assembles to the encoding of what it is accepted as. -/
theorem assemble_cases (l : Line) : (∃ a b, l = ⟨.shr, [.v a, .v b]⟩) ∨ (∃ a b, l = ⟨.shl, [.v a, .v b]⟩) ∨
    l.assemble = l.check.map encode := by
  obtain ⟨m, operands⟩ := l
  unfold Line.assemble
  dsimp only
  split
  · exact .inl ⟨_, _, rfl⟩
  · exact .inr (.inl ⟨_, _, rfl⟩)
  · exact .inr (.inr rfl)

/-- A line that assembles to a word is accepted as the instruction that the word decodes to. -/
theorem check_of_assemble {l : Line} {w : Word} (h : l.assemble = .ok w) : ∃ i, l.check = .ok i ∧ decode w = .ok i := by
  rcases assemble_cases l with ⟨a, b, rfl⟩ | ⟨a, b, rfl⟩ | encoded
  · obtain ⟨x, rfl, y, rfl, rfl⟩ := assemble_shr_vy_eq_ok.1 h
    exact ⟨.shr x, check_of_mem_asmLines (by simp [asmLines]), by simp [decode, decode8]⟩
  · obtain ⟨x, rfl, y, rfl, rfl⟩ := assemble_shl_vy_eq_ok.1 h
    exact ⟨.shl x, check_of_mem_asmLines (by simp [asmLines]), by simp [decode, decode8]⟩
  · obtain ⟨i, hi, rfl⟩ := except_map_eq_ok.1 (encoded.symm.trans h)
    exact ⟨i, hi, decode_encode i⟩

theorem assemble_of_check {l : Line} {i : Instr} (h : l.check = .ok i) : ∃ w, l.assemble = .ok w := by
  rcases assemble_cases l with ⟨a, b, rfl⟩ | ⟨a, b, rfl⟩ | encoded
  · simp only [Line.check, except_bind_eq_ok, checkReg_eq_ok] at h
    obtain ⟨x, rfl, y, rfl, _⟩ := h
    exact ⟨_, assemble_shr_vy_eq_ok.2 ⟨x, rfl, y, rfl, rfl⟩⟩
  · simp only [Line.check, except_bind_eq_ok, checkReg_eq_ok] at h
    obtain ⟨x, rfl, y, rfl, _⟩ := h
    exact ⟨_, assemble_shl_vy_eq_ok.2 ⟨x, rfl, y, rfl, rfl⟩⟩
  · exact ⟨encode i, encoded.trans (except_map_eq_ok.2 ⟨i, h, rfl⟩)⟩

/-- Settles O6: the check and the table agree line by line, and what a line assembles to decodes to what it is accepted as. -/
theorem assembledLinesDecodeToTheirInstruction : Obligations.AssembledLinesDecodeToTheirInstruction := by
  refine fun l => ⟨fun w => check_of_assemble, fun i => assemble_of_check,
    fun i => ⟨mem_asmLines_of_check, check_of_mem_asmLines⟩, fun x y => ?_⟩
  have word : ∀ (z : Reg) (n : BitVec 4), wordXYN 0x8 x z n = encXYN 0x8 x z n := fun z n => wordXYN_eq 0x8 x z n
  refine ⟨?_, ?_, ?_, ?_⟩ <;> rintro rfl
  · exact (assemble_shr x).trans (congrArg _ (word 0 0x6).symm)
  · exact (assemble_shl x).trans (congrArg _ (word 0 0xE).symm)
  · exact assemble_shr_vy_eq_ok.2 ⟨x, rfl, y, rfl, (word y 0x6).symm⟩
  · exact assemble_shl_vy_eq_ok.2 ⟨x, rfl, y, rfl, (word y 0xE).symm⟩

end Sys2Proof
end

section
/-! SUPPORT. Proofs for 10_state.md and 20_memory.md: what each instruction may touch, over all instructions (R34 to R49, R61).
Which fields an instruction writes is said once, in `EffectFrame`, and each statement projects its field out of it. -/

namespace Sys2Proof.Machine

/-! ### The fields an instruction writes -/

/-- Everything but the fields that the instruction writes where it completes is as before. -/
def EffectFrame (i : Instr) (s t : State) : Prop :=
  match i with
  | .cls => t = { s with fb := t.fb }
  | .ret => t = { s with sp := t.sp, pc := t.pc }
  | .call _ => t = { s with stack := t.stack, sp := t.sp, pc := t.pc }
  | .jp _ | .jpV0 _ | .seImm _ _ | .sneImm _ _ | .seReg _ _ | .sneReg _ _ | .skp _ | .sknp _ => t = { s with pc := t.pc }
  | .ldImm _ _ | .addImm _ _ | .ldReg _ _ | .or _ _ | .and _ _ | .xor _ _ | .addReg _ _ | .sub _ _ | .shr _ | .subn _ _
  | .shl _ | .ldVxDt _ | .ldVxMem _ => t = { s with v := t.v }
  | .ldI _ | .addI _ | .ldF _ => t = { s with i := t.i }
  | .rnd _ _ => t = { s with v := t.v, draws := t.draws }
  | .drw _ _ _ => t = { s with fb := t.fb, v := t.v }
  | .ldVxK _ => t = { s with v := t.v, pc := t.pc, awaiting := t.awaiting, kwPrev := t.kwPrev }
  | .ldDtVx _ => t = { s with dt := t.dt }
  | .ldStVx _ => t = { s with st := t.st }
  | .ldB _ | .ldMemVx _ => t = { s with mem := t.mem }

theorem effectFrame_of_effect {i : Instr} {s t : State} (h : Effect i s t) : EffectFrame i s t := by
  cases i
  case ret | call =>
    obtain ⟨_, _, rfl⟩ := h
    rfl
  case seImm | sneImm | seReg | sneReg | skp | sknp =>
    subst h
    simp only [EffectFrame]
    split <;> rfl
  case ldVxK => rcases h with ⟨_, rfl⟩ | ⟨_, rfl⟩ <;> rfl
  case ldB | ldMemVx =>
    subst h
    exact storeBytes_eq ..
  case ldVxMem =>
    subst h
    exact loadRegs_eq ..
  all_goals
    subst h
    rfl

/-- An instruction is fault entry, which writes PC and FAULT, or it writes its own fields. -/
theorem exec_frame {i : Instr} {s t : State} (e : exec i s = .next t) :
    t = { s with pc := t.pc, fault := t.fault } ∨ EffectFrame i s t := by
  rcases exec_cases i s t e with ⟨c, _, rfl⟩ | ⟨-, effect⟩
  · exact .inl rfl
  · exact .inr (effectFrame_of_effect effect)

/-! ### One field at a time -/

section
variable {i : Instr} {s t : State} (e : exec i s = .next t)
include e

theorem exec_cfg : t.cfg = s.cfg := by
  rcases exec_frame e with frame | frame
  · exact (congrArg State.cfg frame :)
  · cases i <;> exact (congrArg State.cfg frame :)

theorem exec_key : t.key = s.key := by
  rcases exec_frame e with frame | frame
  · exact (congrArg State.key frame :)
  · cases i <;> exact (congrArg State.key frame :)

theorem exec_dt : t.dt = s.dt ∨ ∃ x, i = .ldDtVx x := by
  rcases exec_frame e with frame | frame
  · exact .inl (congrArg State.dt frame :)
  · cases i
    case ldDtVx x => exact .inr ⟨x, rfl⟩
    all_goals exact .inl (congrArg State.dt frame :)

theorem exec_st : t.st = s.st ∨ ∃ x, i = .ldStVx x := by
  rcases exec_frame e with frame | frame
  · exact .inl (congrArg State.st frame :)
  · cases i
    case ldStVx x => exact .inr ⟨x, rfl⟩
    all_goals exact .inl (congrArg State.st frame :)

theorem exec_fb : t.fb = s.fb ∨ i = .cls ∨ ∃ x y n, i = .drw x y n := by
  rcases exec_frame e with frame | frame
  · exact .inl (congrArg State.fb frame :)
  · cases i
    case cls => exact .inr (.inl rfl)
    case drw x y n => exact .inr (.inr ⟨x, y, n, rfl⟩)
    all_goals exact .inl (congrArg State.fb frame :)

theorem exec_wait : t.awaiting = s.awaiting ∧ t.kwPrev = s.kwPrev ∨ ∃ x, i = .ldVxK x := by
  rcases exec_frame e with frame | frame
  · exact .inl ⟨(congrArg State.awaiting frame :), (congrArg State.kwPrev frame :)⟩
  · cases i
    case ldVxK x => exact .inr ⟨x, rfl⟩
    all_goals exact .inl ⟨(congrArg State.awaiting frame :), (congrArg State.kwPrev frame :)⟩

theorem exec_draws : t.draws = s.draws ∨ ∃ x kk, i = .rnd x kk := by
  rcases exec_frame e with frame | frame
  · exact .inl (congrArg State.draws frame :)
  · cases i
    case rnd x kk => exact .inr ⟨x, kk, rfl⟩
    all_goals exact .inl (congrArg State.draws frame :)

theorem exec_i : t.i = s.i ∨ (∃ n, i = .ldI n) ∨ (∃ x, i = .addI x) ∨ ∃ x, i = .ldF x := by
  rcases exec_frame e with frame | frame
  · exact .inl (congrArg State.i frame :)
  · cases i
    case ldI n => exact .inr (.inl ⟨n, rfl⟩)
    case addI x => exact .inr (.inr (.inl ⟨x, rfl⟩))
    case ldF x => exact .inr (.inr (.inr ⟨x, rfl⟩))
    all_goals exact .inl (congrArg State.i frame :)

/-- Each of the three writers of I writes an address (R38). -/
theorem exec_i_lt (below : s.i.toNat < 4096) : t.i.toNat < 4096 := by
  rcases exec_i e with same | ⟨n, rfl⟩ | ⟨x, rfl⟩ | ⟨x, rfl⟩
  · rwa [same]
  all_goals
    cases e
    exact toNat_ofAddr_lt _

theorem exec_sp : t.sp = s.sp ∨ i = .ret ∨ ∃ n, i = .call n := by
  rcases exec_frame e with frame | frame
  · exact .inl (congrArg State.sp frame :)
  · cases i
    case ret => exact .inr (.inl rfl)
    case call n => exact .inr (.inr ⟨n, rfl⟩)
    all_goals exact .inl (congrArg State.sp frame :)

theorem exec_stack (j : Fin 16) : t.stack[j] = s.stack[j] ∨ ((∃ n, i = .call n) ∧ j.val = s.sp.val) := by
  rcases exec_cases i s t e with ⟨c, _, rfl⟩ | ⟨-, effect⟩
  · exact .inl rfl
  · have frame := effectFrame_of_effect effect
    cases i
    case call n =>
      obtain ⟨k, hk, rfl⟩ := effect
      by_cases same : j = k
      · exact .inr ⟨⟨n, rfl⟩, by rw [same, hk]⟩
      · exact .inl (Vector.getElem_set_ne k.isLt j.isLt fun e => same (Fin.ext e.symm))
    all_goals exact .inl ((congrArg (fun u : State => u.stack[j]) frame :))

/-- A byte outside the addresses stored to reads as before; an instruction that stores nothing leaves memory (R61). -/
theorem exec_sameBytes (wf : Memory.wf s.cfg s.mem = true) : SameBytes (writtenAddrs i s) s t := by
  intro a ha
  have outside : ∀ k, k < writtenBytes i → a ≠ s.dataAddr k := fun k hk same =>
    ha (List.mem_map.2 ⟨k, List.mem_range.2 hk, same.symm⟩)
  rcases exec_cases i s t e with ⟨c, _, rfl⟩ | ⟨-, effect⟩
  · rfl
  · have frame := effectFrame_of_effect effect
    cases i
    case ldB x =>
      subst effect
      exact memRead_storeBytes_of_ne_dataAddr s _ wf a outside
    case ldMemVx x =>
      subst effect
      exact memRead_storeBytes_of_ne_dataAddr s _ wf a fun k hk => outside k (by rwa [length_regsUpTo] at hk)
    all_goals exact (congrArg (State.memRead · a) frame :)

end

/-! ### The statements -/

/-- Settles O19: fault entry writes no V register, and each effect writes those of its row. -/
theorem registersAreWrittenOnlyByTheirWriters : Obligations.RegistersAreWrittenOnlyByTheirWriters := exec_sameRegs

/-- Settles O22: only Fx33 and Fx55 store, each from I on. -/
theorem memoryIsWrittenOnlyWhereTheTableSays : Obligations.MemoryIsWrittenOnlyWhereTheTableSays := fun _ _ _ wf e =>
  exec_sameBytes e wf

/-- Settles O23: the three writers of I write addresses, which are below 4096. -/
theorem indexIsWrittenOnlyByItsWriters : Obligations.IndexIsWrittenOnlyByItsWriters := fun _ _ _ e =>
  ⟨exec_i e, exec_i_lt e⟩

/-- Settles O24: RET leaves the popped entry where it is, and CALL writes the entry at SP. -/
theorem stackIsTouchedOnlyByCallAndReturn : Obligations.StackIsTouchedOnlyByCallAndReturn := fun _ _ _ e =>
  ⟨exec_sp e, exec_stack e⟩

/-- Settles O25: each of these fields is in the frame of all instructions but its writers. -/
theorem timersScreenAndWaitHaveTheirWriters : Obligations.TimersScreenAndWaitHaveTheirWriters := fun _ _ _ e =>
  ⟨exec_dt e, exec_st e, exec_fb e, exec_wait e, exec_draws e⟩

/-- Settles O26: a step is a halted core's, fault entry, or an instruction's, and none of them writes KEY or a parameter. -/
theorem keysAndParametersAreNotWrittenByAStep : Obligations.KeysAndParametersAreNotWrittenByAStep := by
  intro s t h
  rcases step_cases s t h with ⟨_, rfl⟩ | ⟨_, _, rfl⟩ | ⟨_, i, _, e⟩
  · exact ⟨rfl, rfl⟩
  · exact ⟨rfl, rfl⟩
  · exact ⟨(exec_key e :), (exec_cfg e :)⟩

end Sys2Proof.Machine
end

section
/-! SUPPORT. Proofs for 10_state.md: an instruction depends on V only through the read rows of R34. Two states that differ in V
alone are `s` and `{ s with v := v }`; each operation does the same on both, once the operands it reads agree. -/

namespace Sys2Proof.Machine

/-! ### The operations do not depend on other V registers -/

section
variable (s : State) (v : Vector Byte 16)

theorem storeBytes_withV (a : Addr) (bs : List Byte) :
    ({ s with v := v } : State).storeBytes a bs =
      { s.storeBytes a bs with v := (({ s with v := v } : State).storeBytes a bs).v } := by
  induction bs generalizing s a with
  | nil => rfl
  | cons b bs ih => exact ih (s.memWrite a b) (a + 1)

theorem drawRows_withV (x0 y0 : Byte) (n : Nat) : drawRows { s with v := v } x0 y0 n = drawRows s x0 y0 n := by
  induction n with
  | zero => rfl
  | succ n ih => rw [drawRows, drawRows, ih]; rfl

theorem loadRegs_withV (n : Nat) :
    ({ s with v := v } : State).loadRegs n = { s.loadRegs n with v := (({ s with v := v } : State).loadRegs n).v } := by
  rw [loadRegs_eq, loadRegs_eq s]

/-- The stored registers are the same when the registers up to Vx are. -/
theorem regsUpTo_congr {s s' : State} {x : Reg} (agree : ∀ r ≤ x, s'.readV r = s.readV r) : s'.regsUpTo x = s.regsUpTo x := by
  refine List.ext_getElem (by simp) fun k hk _ => ?_
  rw [getElem_regsUpTo, getElem_regsUpTo]
  exact agree _ (Nat.le_of_lt_succ (by rwa [length_regsUpTo] at hk))

end

/-- The conditions of faults and skips read V in the read row only. -/
theorem faultOf_withV {i : Instr} {s : State} {v : Vector Byte 16}
    (agree : ∀ r ∈ readRegs i, ({ s with v := v } : State).readV r = s.readV r) :
    faultOf i { s with v := v } = faultOf i s := by
  cases i
  case skp x | sknp x =>
    have hx := agree x List.mem_cons_self
    simp only [faultOf, hx]
  all_goals rfl

theorem skipHolds_withV {i : Instr} {s : State} {v : Vector Byte 16}
    (agree : ∀ r ∈ readRegs i, ({ s with v := v } : State).readV r = s.readV r) :
    skipHolds i { s with v := v } = skipHolds i s := by
  cases i
  case seImm x kk | sneImm x kk | skp x | sknp x =>
    have hx := agree x List.mem_cons_self
    simp only [skipHolds, hx]
  case seReg x y | sneReg x y =>
    have hx := agree x List.mem_cons_self
    have hy := agree y (List.mem_cons_of_mem _ List.mem_cons_self)
    simp only [skipHolds, hx, hy]
  all_goals rfl

/-- What R34 asks of the next states `t` and `t'` of `s` and `s'`: they differ in V alone, and each register of `written` has
one value in both or is left alone in both. -/
def SameWrites (written : List Reg) (s s' t t' : State) : Prop :=
  t' = { t with v := t'.v } ∧
    ∀ r ∈ written, t'.readV r = t.readV r ∨ (t.readV r = s.readV r ∧ t'.readV r = s'.readV r)

/-- The same byte written to the same register on both sides. -/
theorem sameWrites_writeV {s s' : State} (u : State) (v : Vector Byte 16) (x : Reg) (b : Byte) :
    SameWrites [x] s s' (u.writeV x b) (({ u with v := v } : State).writeV x b) := by
  refine ⟨rfl, fun r hr => .inl ?_⟩
  rw [List.mem_singleton.1 hr, readV_writeV_same, readV_writeV_same]

/-- The same result and flag written on both sides. -/
theorem sameWrites_writeFlagged {s s' : State} (u : State) (v : Vector Byte 16) (x : Reg) (b : Byte) (f : Bool) :
    SameWrites [x, vF] s s' (u.writeFlagged x b f) (({ u with v := v } : State).writeFlagged x b f) := by
  refine ⟨rfl, fun r hr => .inl ?_⟩
  rw [readV_writeFlagged, readV_writeFlagged]
  rcases List.mem_pair.1 hr with rfl | rfl <;> simp

/-- An effect computes what it writes from the registers of its read row. -/
theorem sameWrites_of_effect {i : Instr} {s t t' : State} {v : Vector Byte 16}
    (agree : ∀ r ∈ readRegs i, ({ s with v := v } : State).readV r = s.readV r)
    (h : Effect i s t) (h' : Effect i { s with v := v } t') : SameWrites (writtenRegs i) s { s with v := v } t t' := by
  cases i
  case ret | call =>
    obtain ⟨j, hj, rfl⟩ := h
    obtain ⟨k, hk, rfl⟩ := h'
    obtain rfl : k = j := Fin.ext (by simp at hk; omega)
    exact ⟨rfl, nofun⟩
  case cls | jp | ldI =>
    subst h h'
    exact ⟨rfl, nofun⟩
  case seImm | sneImm | seReg | sneReg | skp | sknp =>
    simp only [Effect, skipHolds_withV agree] at h h'
    subst h h'
    refine ⟨?_, nofun⟩
    split <;> rfl
  case ldImm | rnd | ldVxDt =>
    subst h h'
    exact sameWrites_writeV _ v _ _
  case addImm x _ | ldReg _ x =>
    have hx := agree x List.mem_cons_self
    simp only [Effect, hx] at h'
    subst h h'
    exact sameWrites_writeV _ v _ _
  case or x y | and x y | xor x y =>
    have hx := agree x List.mem_cons_self
    have hy := agree y (List.mem_cons_of_mem _ List.mem_cons_self)
    simp only [Effect, hx, hy] at h'
    subst h h'
    exact sameWrites_writeV _ v _ _
  case addReg x y | sub x y | subn x y =>
    have hx := agree x List.mem_cons_self
    have hy := agree y (List.mem_cons_of_mem _ List.mem_cons_self)
    simp only [Effect, hx, hy] at h'
    subst h h'
    exact sameWrites_writeFlagged s v _ _ _
  case shr x | shl x =>
    have hx := agree x List.mem_cons_self
    simp only [Effect, hx] at h'
    subst h h'
    exact sameWrites_writeFlagged s v _ _ _
  case jpV0 nnn =>
    have h0 := agree 0 List.mem_cons_self
    simp only [Effect, State.offsetTarget, h0] at h h'
    subst h h'
    exact ⟨rfl, nofun⟩
  case ldDtVx x | ldStVx x | addI x | ldF x =>
    have hx := agree x List.mem_cons_self
    simp only [Effect, State.indexSum, hx] at h h'
    subst h h'
    exact ⟨rfl, nofun⟩
  case drw x y n =>
    have hx := agree x List.mem_cons_self
    have hy := agree y (List.mem_cons_of_mem _ List.mem_cons_self)
    simp only [Effect, hx, hy, drawRows_withV] at h h'
    subst h h'
    exact sameWrites_writeV (s.setFb _) v vF _
  case ldVxK x =>
    have wait : ({ s with v := v } : State).waitKeys = s.waitKeys := rfl
    rcases h with ⟨idle, rfl⟩ | ⟨pressed, rfl⟩ <;> rcases h' with ⟨idle', rfl⟩ | ⟨pressed', rfl⟩
    · exact ⟨rfl, fun _ _ => .inr ⟨rfl, rfl⟩⟩
    · exact absurd (wait.trans idle) pressed'
    · exact absurd (wait.symm.trans idle') pressed
    · exact sameWrites_writeV s.endWait v x _
  case ldB x =>
    have hx := agree x List.mem_cons_self
    simp only [Effect, hx] at h h'
    subst h h'
    exact ⟨storeBytes_withV .., nofun⟩
  case ldMemVx x =>
    have regs := regsUpTo_congr fun r hr => agree r (List.mem_filter.2 ⟨List.mem_finRange r, decide_eq_true hr⟩)
    simp only [Effect, regs] at h h'
    subst h h'
    exact ⟨storeBytes_withV .., nofun⟩
  case ldVxMem x =>
    subst h h'
    refine ⟨loadRegs_withV .., fun r hr => .inl ?_⟩
    have loaded : r.val < x.val + 1 := Nat.lt_succ_of_le (of_decide_eq_true (List.mem_filter.1 hr).2)
    rw [readV_loadRegs _ _ x.isLt, readV_loadRegs _ _ x.isLt, if_pos loaded, if_pos loaded]
    rfl

/-- Settles O20: a fault takes the same on both states, since its condition does, and each effect computes from the registers of
its read row. -/
theorem registersAreReadOnlyByTheirReaders : Obligations.RegistersAreReadOnlyByTheirReaders := by
  intro i s s' t t' hs agree e e'
  generalize s'.v = v at hs
  subst hs
  change SameWrites (writtenRegs i) s { s with v := v } t t'
  rcases exec_cases i s t e with ⟨c, hc, rfl⟩ | ⟨completes, effect⟩ <;>
  rcases exec_cases i _ t' e' with ⟨c', hc', rfl⟩ | ⟨completes', effect'⟩ <;>
  simp only [faultOf_withV agree] at *
  · obtain rfl : c' = c := by
      rw [hc] at hc'
      injection hc' with e
      exact e.symm
    exact ⟨rfl, fun _ _ => .inr ⟨rfl, rfl⟩⟩
  · rw [hc] at completes'
    cases completes'
  · rw [hc'] at completes
    cases completes
  · exact sameWrites_of_effect agree effect effect'

end Sys2Proof.Machine
end

section
/-! SUPPORT. Proofs for 10_state.md: the invariant (R52) holds at reset, is kept by every step and every host move, and so holds
at every state that a run reaches; and what reset leaves (R53). -/

namespace Sys2Proof.Machine

/-! ### Steps keep the invariant (R52) -/

/-- Where PC is an address, PC at the end of an instruction that completes is one too (R39). -/
theorem effect_pc_lt {i : Instr} {s t : State} (h : Effect i s t) (below : s.pc.toNat < 4096) : t.pc.toNat < 4096 := by
  have frame := effectFrame_of_effect h
  cases i
  case ret | call =>
    obtain ⟨_, _, rfl⟩ := h
    exact toNat_ofAddr_lt _
  case jp | jpV0 =>
    subst h
    exact toNat_ofAddr_lt _
  case seImm | sneImm | seReg | sneReg | skp | sknp =>
    simp only [Effect] at h
    split at h <;> subst h
    · exact toNat_ofAddr_lt _
    · exact below
  case ldVxK =>
    rcases h with ⟨_, rfl⟩ | ⟨_, rfl⟩
    · exact toNat_ofAddr_lt _
    · exact below
  all_goals
    have same := (congrArg State.pc frame :)
    exact lt_of_eq_of_lt (congrArg BitVec.toNat same) below

/-- The live entries stay addresses: CALL pushes PC, and RET takes an entry off (R42 to R44). -/
theorem effect_live {i : Instr} {s t : State} (h : Effect i s t) (below : s.pc.toNat < 4096)
    (live : ∀ j : Fin 16, j.val < s.sp.val → s.stack[j].toNat < 4096) (j : Fin 16) (hj : j.val < t.sp.val) :
    t.stack[j].toNat < 4096 := by
  have frame := effectFrame_of_effect h
  cases i
  case call =>
    obtain ⟨k, hk, rfl⟩ := h
    have pushed : (s.stack.set k s.pc)[j] = if k = j then s.pc else s.stack[j] := by
      simp only [Fin.getElem_fin, Vector.getElem_set, Fin.ext_iff]
    change (s.stack.set k s.pc)[j].toNat < 4096
    rw [pushed]
    split
    · exact below
    · exact live j (by simp at hj; omega)
  case ret =>
    obtain ⟨k, hk, rfl⟩ := h
    exact live j (by simp at hj; omega)
  all_goals
    have sp := (congrArg State.sp frame :)
    have entry := (congrArg (fun u : State => u.stack[j]) frame :)
    exact lt_of_eq_of_lt (congrArg BitVec.toNat entry) (live j (lt_of_lt_of_eq hj (congrArg Fin.val sp)))

/-- Stores keep the canonical form of memory, and no other instruction writes it. -/
theorem effect_memWf {i : Instr} {s t : State} (h : Effect i s t) (wf : Memory.wf s.cfg s.mem = true) :
    Memory.wf t.cfg t.mem = true := by
  have frame := effectFrame_of_effect h
  cases i
  case ldB | ldMemVx =>
    subst h
    exact storeBytes_wf _ _ _ wf
  all_goals exact (congrArg (fun u : State => Memory.wf u.cfg u.mem) frame :).trans wf

/-- A wait that goes on leaves its own instruction where the next step fetches (R285). -/
theorem fetchWord_advance_keepWaiting (s : State) : s.advance.keepWaiting.fetchWord = s.fetchWord := by
  simp [State.fetchWord]

section
variable {s : State} (inv : s.Inv)
include inv

/-- Fault entry keeps the invariant: PC is back at the faulting word, which FAULT records (R410, R411). -/
theorem inv_advance_enterFault (c : FaultCode) : (s.advance.enterFault c s.fetchWord).Inv := by
  have atPc : s.pc.toNat = (toAddr s.pc).toNat := by rw [toNat_toAddr, Nat.mod_eq_of_lt inv.pc]
  rw [advance_enterFault_at atPc]
  refine ⟨inv.cfg, inv.mem, inv.i, inv.pc, inv.live, inv.await, fun f recorded => ?_⟩
  cases recorded
  exact ⟨rfl, rfl⟩

/-- Only Fx0A leaves AWAIT at 1: it sets it, and a wait that another instruction would leave on is none, since the instruction at
PC is then an Fx0A. -/
theorem eq_keepWaiting_of_awaits {i : Instr} {t : State} (hi : decode s.fetchWord = .ok i)
    (e : exec i s.advance = .next t) (effect : Effect i s.advance t) (waits : t.awaiting = true) :
    (∃ x, i = .ldVxK x) ∧ t = s.advance.keepWaiting := by
  have wait : ∃ x, i = .ldVxK x := by
    rcases exec_wait e with ⟨same, _⟩ | wait
    · obtain ⟨x, hx⟩ := inv.await (same.symm.trans waits)
      rw [hi] at hx
      injection hx with hx
      exact ⟨x, hx⟩
    · exact wait
  obtain ⟨x, rfl⟩ := wait
  exact ⟨⟨x, rfl⟩, eq_keepWaiting_of_awaiting effect waits⟩

/-- An instruction that completes keeps the invariant. -/
theorem inv_of_effect {i : Instr} {t : State} (running : s.fault = none) (hi : decode s.fetchWord = .ok i)
    (e : exec i s.advance = .next t) (completes : faultOf i s.advance = none) : t.Inv := by
  have effect := exec_effect i _ t completes e
  have pc : s.advance.pc.toNat < 4096 := toNat_ofAddr_lt _
  refine ⟨?_, effect_memWf effect inv.mem, exec_i_lt e inv.i, effect_pc_lt effect pc, effect_live effect pc inv.live,
    fun waits => ?_, fun f recorded => ?_⟩
  · rw [exec_cfg e]
    exact inv.cfg
  · obtain ⟨⟨x, rfl⟩, rfl⟩ := eq_keepWaiting_of_awaits inv hi e effect waits
    exact ⟨x, by rw [fetchWord_advance_keepWaiting, hi]⟩
  · rw [exec_keeps_fault i _ t completes e] at recorded
    cases running.symm.trans recorded

end

/-- Settles O15: a step is a halted core's, fault entry at the word in PC, or an instruction that completes. -/
theorem invariantIsKeptByEveryStep : Obligations.InvariantIsKeptByEveryStep := by
  intro s t inv h
  rcases step_cases s t h with ⟨_, rfl⟩ | ⟨_, _, rfl⟩ | ⟨running, i, hi, e⟩
  · exact inv
  · exact inv_advance_enterFault inv _
  · rcases exec_cases i _ t e with ⟨c, hc, rfl⟩ | ⟨completes, _⟩
    · rw [encode_of_decode_of_fault hi hc]
      exact inv_advance_enterFault inv c
    · exact inv_of_effect inv running hi e completes

/-! ### Reset and the host's moves (R53, R430 to R439) -/

/-- The reset state meets the invariant, whatever number of draws came before (R53; log entry 3). -/
theorem inv_reset {c : Config} (wf : c.wf = true) (n : Nat) : ({ State.resetWith c with draws := n } : State).Inv :=
  ⟨wf, memory_wf_nil c, (by decide : (0x0000 : Word).toNat < 4096), (by decide : (0x0200 : Word).toNat < 4096), nofun, nofun,
    nofun⟩

/-- Settles O16: it is the state after reset with the draw counter at 0. -/
theorem invariantHoldsAfterReset : Obligations.InvariantHoldsAfterReset := fun _ wf => inv_reset wf 0

theorem hostLoad_next {bs : List Byte} {s t : State} (h : hostLoad bs s = .next t) : t = s.storeBytes programBase bs := by
  unfold hostLoad at h
  split at h <;> cases h
  rfl

/-- A load writes memory alone, so that it keeps the invariant where no clause speaks of the word at PC (R430). -/
theorem inv_hostLoad {bs : List Byte} {s t : State} (inv : s.Inv) (h : hostLoad bs s = .next t)
    (idle : s.awaiting = false) (running : s.fault = none) : t.Inv := by
  obtain rfl := hostLoad_next h
  have wf := storeBytes_wf s programBase bs inv.mem
  rw [storeBytes_eq] at wf ⊢
  exact ⟨inv.cfg, wf, inv.i, inv.pc, inv.live, fun waits => (nomatch idle.symm.trans waits),
    fun f recorded => nomatch running.symm.trans recorded⟩

/-- A key write writes KEY alone, of which the invariant says nothing (R432). -/
theorem inv_setKey {s : State} (inv : s.Inv) (k : Reg) (down : Bool) : (setKey k down s).Inv :=
  ⟨inv.cfg, inv.mem, inv.i, inv.pc, inv.live, inv.await, inv.fault⟩

/-- A tick writes the timers alone, which are bytes (R436). -/
theorem inv_tick {s : State} (inv : s.Inv) : (tick s).Inv :=
  ⟨inv.cfg, inv.mem, inv.i, inv.pc, inv.live, inv.await, inv.fault⟩

/-- Settles O60: move by move. -/
theorem hostMovesKeepTheInvariant : Obligations.HostMovesKeepTheInvariant := by
  intro m s t inv h before
  cases m
  case load bs =>
    obtain ⟨idle, running⟩ := before bs rfl
    exact inv_hostLoad inv h idle running
  case setKey k down =>
    cases h
    exact inv_setKey inv k down
  case tick =>
    cases h
    exact inv_tick inv
  case reset =>
    cases h
    exact inv_reset inv.cfg s.draws

/-! ### Runs (R430, R431, R455) -/

/-- Before the first step the invariant holds, and no Fx0A is pending and no fault recorded, so that loads keep it. -/
theorem booting_inv {c : Config} {s : State} (wf : c.wf = true) (h : Booting c s) :
    s.Inv ∧ s.cfg = c ∧ s.awaiting = false ∧ s.fault = none := by
  induction h with
  | reset n => exact ⟨inv_reset wf n, rfl, rfl, rfl⟩
  | load _ loaded ih =>
    obtain ⟨inv, cfg, idle, running⟩ := ih
    have inv' := inv_hostLoad inv loaded idle running
    obtain rfl := hostLoad_next loaded
    rw [storeBytes_eq] at inv' ⊢
    exact ⟨inv', cfg, idle, running⟩
  | key k down _ ih => exact ⟨inv_setKey ih.1 k down, ih.2⟩
  | tick _ ih => exact ⟨inv_tick ih.1, ih.2⟩

/-- Settles O17: the states before the first step meet the invariant, and steps, key writes and ticks keep it. -/
theorem reachableStatesMeetTheInvariant : Obligations.ReachableStatesMeetTheInvariant := by
  intro c s wf h
  induction h with
  | boot booting =>
    obtain ⟨inv, cfg, _⟩ := booting_inv wf booting
    exact ⟨inv, cfg⟩
  | step _ stepped ih =>
    obtain ⟨inv, cfg⟩ := ih
    exact ⟨invariantIsKeptByEveryStep _ _ inv stepped,
      (keysAndParametersAreNotWrittenByAStep _ _ stepped).2.trans cfg⟩
  | key k down _ ih => exact ⟨inv_setKey ih.1 k down, ih.2⟩
  | tick _ ih => exact ⟨inv_tick ih.1, ih.2⟩

/-! ### What reset leaves (R53) -/

/-- After reset a byte is what the reset contents of memory have there (R53, R62, R70). -/
theorem memRead_resetWith (c : Config) (a : Addr) : (State.resetWith c).memRead a = resetByte c a.toNat := rfl

theorem resetByte_outside {c : Config} {a : Nat} (outside : a < c.fontBase.toNat ∨ c.fontBase.toNat + 80 ≤ a) :
    resetByte c a = 0 :=
  dif_neg (by omega)

theorem resetByte_font (c : Config) (j : Fin 80) : resetByte c (c.fontBase.toNat + j.val) = c.fontData[j] := by
  have inside : c.fontBase.toNat ≤ c.fontBase.toNat + j.val ∧ c.fontBase.toNat + j.val < c.fontBase.toNat + 80 := by omega
  simp [resetByte, inside]

/-- In its domain the font table ends below 0x200, so that no address of it wraps (R8, R71). -/
theorem fontBase_le_of_wf {c : Config} (wf : c.wf = true) : c.fontBase.toNat + 80 ≤ 0x200 := by
  simp only [Config.wf, Config.fontFits, Bool.and_eq_true, decide_eq_true_eq] at wf
  exact wf.1

/-- Settles O18: memory lists nothing after reset, so it reads as its reset contents; the rest is as it is written. -/
theorem resetLeavesTheResetValues : Obligations.ResetLeavesTheResetValues := by
  refine ⟨fun s => rfl, fun c wf => ⟨fun a outside => ?_, fun j => ?_, fun r => ?_, rfl, fun px py => ?_, rfl, fun j => ?_,
    rfl, rfl, rfl, fun k => ?_, rfl, rfl, rfl⟩⟩
  · exact resetByte_outside outside
  · have address : (BitVec.ofNat 12 (c.fontBase.toNat + j.val)).toNat = c.fontBase.toNat + j.val := by
      have := fontBase_le_of_wf wf
      rw [BitVec.toNat_ofNat]
      omega
    rw [memRead_resetWith, address, resetByte_font]
  · simp [State.resetWith, State.readV]
  · exact pixel_clearedFb px py
  · simp [State.resetWith]
  · simp [State.resetWith, State.keyDown]

/-! ### Program load (R63, R430) -/

/-- Settles O59: a load is a store from 0x200 on, and 3584 bytes from there end at 0xFFF. -/
theorem loadPlacesTheProgramAt0x200 : Obligations.LoadPlacesTheProgramAt0x200 := by
  refine fun s bs wf => ⟨fun fits => ?_, fun long => if_neg (Nat.not_le.2 long)⟩
  refine ⟨s.storeBytes programBase bs, if_pos fits, fun j hj => ?_, fun a outside => ?_, storeBytes_eq ..⟩
  · rw [BitVec.ofNat_add]
    exact memRead_storeBytes_at s programBase bs j hj (by omega) wf
  · refine memRead_storeBytes_other s programBase bs a wf fun k hk same => ?_
    have address : a.toNat = 0x200 + k := by
      have base : programBase.toNat = 0x200 := rfl
      rw [same, BitVec.toNat_add, BitVec.toNat_ofNat, base]
      omega
    omega

end Sys2Proof.Machine
end

section
/-! SUPPORT. Proofs about two instructions, one after the other: RET after CALL (R124, R130), a second draw (R236), Fx65 after Fx55
(R320) and a fetch after Fx55 (R79); and what one step and RND do by number (R96, R216). -/

namespace Sys2Proof.Machine

/-! ### One step, and RND -/

/-- Settles O7: the step advances PC and runs the decoded instruction. -/
theorem stepRunsTheDecodedInstruction : Obligations.StepRunsTheDecodedInstruction := by
  intro s i running hi
  rw [step_of_decode running hi, advance_eq]

theorem decode_wordXKK_rnd (x : Reg) (kk : Byte) : decode (wordXKK 0xC x kk) = .ok (.rnd x kk) := by
  have word : wordXKK 0xC x kk = encXKK 0xC x kk := wordXKK_eq 0xC x kk
  simp [word, decode]

/-- Settles O43: RND is the write of the draw AND kk to Vx, and AND works bit by bit. -/
theorem rndMasksTheDraw : Obligations.RndMasksTheDraw := by
  refine fun x kk => ⟨decode_wordXKK_rnd x kk, fun s => ⟨randomInto x kk s.drawRandom, rfl, ?_,
    exec_sameRegs (.rnd x kk) s _ rfl, rfl⟩, fun s r b => ?_⟩
  · rw [readV_randomInto_drawRandom, if_pos rfl]
  · have written : (randomInto x kk (r, s)).readV x = r &&& kk := readV_writeV_same s x (r &&& kk)
    rw [written, BitVec.getLsbD_and]

/-! ### RET after CALL (R43, R124, R130) -/

/-- Settles O31: CALL puts PC in the entry at SP, which RET takes off again. -/
theorem returnGoesBackAfterCall : Obligations.ReturnGoesBackAfterCall := by
  intro nnn s t t' u room called stack sp returned
  obtain ⟨j, hj⟩ : ∃ j : Fin 16, s.sp.val = j.val := ⟨⟨s.sp.val, room⟩, rfl⟩
  rw [exec_call_room nnn s j hj] at called
  cases called
  have live : t'.sp.val = j.val + 1 := by rw [sp]; rfl
  have entry : t'.stack[j] = s.pc := by
    rw [stack]
    exact Vector.getElem_set_self j.isLt
  rw [exec_ret_live t' j live, entry] at returned
  cases returned
  refine ⟨?_, Fin.ext hj.symm, rfl⟩
  rw [State.setPc_pc, toNat_ofAddr, toNat_toAddr]

/-! ### A second draw (R236) -/

/-- The same sprite bytes drawn at the same place cover the same pixels. -/
theorem spriteCovers_congr {s s' : State} {n : Nat}
    (same : ∀ r, r < n → s'.memRead (s'.dataAddr r) = s.memRead (s.dataAddr r)) (x0 y0 : Byte) (px : Fin 64) (py : Fin 32) :
    SpriteCovers s' x0 y0 n px py ↔ SpriteCovers s x0 y0 n px py := by
  rw [← drawnOn_iff, ← drawnOn_iff]
  refine exists_congr fun r => exists_congr fun c => and_congr_right fun hr => ?_
  rw [same r hr]

/-- A draw covers some pixel exactly when its sprite has a 1 bit. -/
theorem exists_spriteCovers_iff (s : State) (x0 y0 : Byte) (n : Nat) : (∃ px py, SpriteCovers s x0 y0 n px py) ↔
    ∃ r c, r < n ∧ c < 8 ∧ (s.memRead (s.dataAddr r)).getLsbD (7 - c) = true := by
  constructor
  · rintro ⟨px, py, covered⟩
    obtain ⟨r, c, hr, hc, _, _, bit⟩ := (drawnOn_iff ..).2 covered
    exact ⟨r, c, hr, hc, bit⟩
  · rintro ⟨r, c, hr, hc, bit⟩
    exact ⟨_, _, (drawnOn_iff ..).1 ⟨r, c, hr, hc, rfl, rfl, bit⟩⟩

section SecondDraw
variable {x y : Reg} {n : BitVec 4} {s t s' t' : State} (e : exec (.drw x y n) s = .next t) (fb : s'.fb = t.fb)
  (covers : ∀ px py, SpriteCovers s' (s'.readV x) (s'.readV y) n.toNat px py ↔
    SpriteCovers s (s.readV x) (s.readV y) n.toNat px py) (e' : exec (.drw x y n) s' = .next t')
include e fb covers e'

/-- Every pixel is toggled by both draws or by none. -/
theorem fb_second_drw : t'.fb = s.fb := by
  refine fb_ext _ _ fun px py => ?_
  by_cases covered : SpriteCovers s (s.readV x) (s.readV y) n.toNat px py
  · rw [pixel_drw_of_covered e' ((covers px py).2 covered), fb, pixel_drw_of_covered e covered, Bool.not_not]
  · rw [pixel_drw_of_not_covered e' (fun c => covered ((covers px py).1 c)), fb, pixel_drw_of_not_covered e covered]

/-- The second draw turns off the pixels that the first one turned on. -/
theorem vF_second_drw_eq_one_iff :
    t'.readV vF = 1 ↔ ∃ px py, pixel s.fb px py = false ∧ pixel t.fb px py = true := by
  have turned := covered_on_iff_turned_off e'
  rw [fb, fb_second_drw e fb covers e'] at turned
  simp only [vF_drw_eq_one_iff e', fb, turned, and_comm]

end SecondDraw

/-- Where a draw found every covered pixel off, the pixels it turned on are the covered ones. -/
theorem turned_on_iff_covered {x y : Reg} {n : BitVec 4} {s t : State} (e : exec (.drw x y n) s = .next t)
    (noCollision : t.readV vF = 0) (px : Fin 64) (py : Fin 32) :
    (pixel s.fb px py = false ∧ pixel t.fb px py = true) ↔ SpriteCovers s (s.readV x) (s.readV y) n.toNat px py := by
  by_cases covered : SpriteCovers s (s.readV x) (s.readV y) n.toNat px py
  · have off : pixel s.fb px py = false := by
      by_contra on
      exact (vF_drw_eq_zero_iff e).1 noCollision ⟨px, py, covered, by simpa using on⟩
    simp [covered, off, pixel_drw_of_covered e covered]
  · simp [covered, pixel_drw_of_not_covered e covered]

/-- Settles O45: the two draws cover the same pixels. -/
theorem drawingTwiceRestoresTheScreen : Obligations.DrawingTwiceRestoresTheScreen := by
  intro x y n s t s' t' e fb hx hy bytes e'
  have covers : ∀ px py, SpriteCovers s' (s'.readV x) (s'.readV y) n.toNat px py ↔
      SpriteCovers s (s.readV x) (s.readV y) n.toNat px py := by
    rw [hx, hy]
    exact spriteCovers_congr bytes _ _
  refine ⟨fb_second_drw e fb covers e', vF_second_drw_eq_one_iff e fb covers e', fun noCollision => ?_⟩
  simp only [vF_second_drw_eq_one_iff e fb covers e', turned_on_iff_covered e noCollision, exists_spriteCovers_iff]

/-! ### Fx65 after Fx55 (R315, R320), and a fetch after it (R79) -/

/-- Fx55 that completes leaves V0 to Vx from I on (R315). -/
theorem memRead_stored {x k : Reg} {s : State} (wf : Memory.wf s.cfg s.mem = true) (hk : k ≤ x) :
    (s.storeBytes (s.dataAddr 0) (s.regsUpTo x)).memRead (s.dataAddr k.val) = s.readV k := by
  have fits : (s.regsUpTo x).length ≤ 4096 := by
    rw [length_regsUpTo]
    omega
  have stored : k.val < (s.regsUpTo x).length := by
    rw [length_regsUpTo]
    exact Nat.lt_succ_of_le hk
  rw [memRead_storeBytes_dataAddr s _ wf fits k.val stored, getElem_regsUpTo]

/-- Settles O55: Fx65 reads each register from the address that Fx55 stored it to. -/
theorem loadAfterStoreRestoresTheRegisters : Obligations.LoadAfterStoreRestoresTheRegisters := by
  intro x s t s' t' wf clear stored index bytes loaded k hk
  rw [exec_ldMemVx_of_not_writesFont x s clear] at stored
  cases stored
  cases loaded
  have address : s'.dataAddr k.val = s.dataAddr k.val := by rw [dataAddr_eq, dataAddr_eq, index]
  have written : s.dataAddr k.val ∈ writtenAddrs (.ldMemVx x) s :=
    List.mem_map.2 ⟨k.val, List.mem_range.2 (Nat.lt_succ_of_le hk), rfl⟩
  rw [readV_loadRegs s' _ x.isLt, if_pos (Nat.lt_succ_of_le hk), address, bytes _ written, memRead_stored wf hk]

/-- Settles O56: the fetch reads the two addresses that the step stored V[j] and V[k] to. -/
theorem storedWordIsFetchedByTheNextStep : Obligations.StoredWordIsFetchedByTheNextStep := by
  intro x j k s t wf running hi h noFault next hk atPc
  obtain ⟨i, hi', effect⟩ := step_effect_of_no_fault h noFault
  obtain rfl : i = .ldMemVx x := by
    rw [hi] at hi'
    injection hi' with same
    exact same.symm
  have hj : j ≤ x := le_trans (Fin.le_def.2 (by omega)) hk
  have second : toAddr t.pc + 1 = s.dataAddr k.val := by
    rw [← atPc, next, State.dataAddr, State.dataAddr, BitVec.ofNat_add, BitVec.add_assoc]
    rfl
  have stored : ∀ r : Reg, r ≤ x → t.memRead (s.dataAddr r.val) = s.readV r := by
    intro r hr
    simp only [Effect] at effect
    subst effect
    exact memRead_stored (s := s.advance) wf hr
  rw [toNat_fetchWord, second, ← atPc, stored j hj, stored k hk]

end Sys2Proof.Machine
end
